-- ==== Sys2Proof/Word.lean ====
section
/-! DEFINITION. The word types of the CHIP-8 core: bytes, 16-bit words, 12-bit addresses, register indices
(00_scope.md R3, 30_encoding.md R62). -/

namespace Sys2Proof

/-- An 8-bit value: a general register, a timer, a byte of memory, the immediate `kk`. -/
abbrev Byte := BitVec 8

/-- A 16-bit value: an opcode, `I`, `PC`, a stack slot. -/
abbrev Word := BitVec 16

/-- The 12-bit field `nnn` of an opcode. -/
abbrev Addr12 := BitVec 12

/-- The index of a general register, 0..15 (10_state.md R11). -/
abbrev Reg := Fin 16

/-- The index of VF, the flag register (10_state.md R12). -/
abbrev vf : Reg := 15

end Sys2Proof
end

