-- ==== Sys2Proof/Config.lean ====
section
/-! DEFINITION. What an implementation fixes (00_scope.md R3), and the free value of the model (R4, `rand_byte`).
The three parameters of R4 that have a value are functions a reader can change: `fontTable` in
Machine/Memory.lean, `vfPriority` in Machine/Flags.lean, `faultCode` in Machine/Ops.lean. -/

namespace Sys2Proof.Config

/-- `MEM_SIZE`: 4096 bytes, addresses 0x000..0xFFF (00_scope.md R3). -/
abbrev memSize : Nat := 4096

/-- `STACK_DEPTH`: 16 slots (00_scope.md R3). -/
abbrev stackDepth : Nat := 16

/-- `DISPLAY_W`: 64 columns (00_scope.md R3). -/
abbrev displayW : Nat := 64

/-- `DISPLAY_H`: 32 rows (00_scope.md R3). -/
abbrev displayH : Nat := 32

/-- `NUM_KEYS`: 16 latches (00_scope.md R3). -/
abbrev numKeys : Nat := 16

/-- `FONT_BYTES`: 80 bytes of font from address 0x000 (00_scope.md R3). -/
abbrev fontBytes : Nat := 80

/-- `GLYPH_BYTES`: 5 bytes a glyph (00_scope.md R3). -/
abbrev glyphBytes : Nat := 5

/-- `ROM_BASE`: 0x200 (00_scope.md R3). -/
abbrev romBase : Nat := 0x200

/-- `ROM_MAX`: 0xE00 bytes (00_scope.md R3). -/
abbrev romMax : Nat := 0xE00

/-- `INSTR_BYTES`: 2 (00_scope.md R3). -/
abbrev instrBytes : Nat := 2

/-- FREE VALUE: the byte that the random source answers to the n-th draw (42_load_alu.md R121, 92_eei_decisions.md
D8: "a free draw under no law"). It has no body: no proof can see what it is (log entry 2). -/
opaque randByte : Nat → Byte

/-- The two values of the parameter `VF_PRIORITY` (00_scope.md R4, 42_load_alu.md R123): which write survives when a
flag-writing ALU instruction names VF as its destination. -/
inductive VfPriority where
  /-- the flag survives and the result is discarded -/
  | flagWins
  /-- the write that the source's opcode table lists later survives -/
  | tableOrder
  deriving DecidableEq, Repr

end Sys2Proof.Config
end

