-- ==== Sys2Proof/Machine/State.lean ====
section
/-! DEFINITION. The state of the core (10_state.md R10), the host's commands (60_exceptions.md R180), the failure kinds
(R171) and the reset state (10_state.md R30). -/

namespace Sys2Proof.Machine

/-- The failure kinds of a command (60_exceptions.md R171). The payload is the advisory info of that table. -/
inductive Fault where
  /-- raised by CALL at SP = 16 (R86); safe: the run stops where the core reports a failure -/
  | stackOverflow
  /-- raised by RET at SP = 0 (R87); safe -/
  | stackUnderflow
  /-- raised by the fetch, DRW, BCD, ST_REGS and LD_REGS when the range of the access passes 4095 (R44, R45, R61); it
  carries the highest address of the range; safe -/
  | memoryOutOfBounds (addr : Nat)
  /-- raised by SKP, SKNP and the host's key_down, key_up when the key index is above 15 (R156, R186, R187); it carries
  the index; safe -/
  | invalidKeyIndex (k : Nat)
  /-- raised by the host's load_rom when there are more than 0xE00 bytes (R182); it carries their number; safe -/
  | romTooLarge (len : Nat)
  deriving DecidableEq, Repr

/-- Why a step has no meaning. -/
inductive Refusal where
  /-- raised only by an arm of `exec` whose instruction has no meaning yet (none is left); safe: the run stops -/
  | notModelled (mnemonic : String)
  deriving DecidableEq, Repr

/-- The host's commands, complete (60_exceptions.md R180). -/
inductive Command where
  /-- `reset()` (70_reset_and_hazards.md R200) -/
  | reset
  /-- `load_rom(bytes)` (60_exceptions.md R182) -/
  | loadRom (bytes : List Byte)
  /-- `execute_instruction_cycle()` (R183) -/
  | cycle
  /-- `decrement_timers()` (R184) -/
  | decrementTimers
  /-- `key_down(k)` (R186) -/
  | keyDown (k : Nat)
  /-- `key_up(k)` (R187) -/
  | keyUp (k : Nat)
  deriving DecidableEq, Repr

/-- Memory: the (address, byte) pairs that differ from the reset content, addresses strictly rising
(`Memory.wf` in Machine/Memory.lean). -/
abbrev Memory := List Host.Cell

/-- The display: 32 rows of 64 pixels; bit `c` of row `r` is the pixel in column `c` of row `r`, that is pixel number
`c + 64 * r` (10_state.md R19; log entry 17). -/
abbrev Display := Vector (BitVec 64) 32

/-- The ten items of 10_state.md R10, under their names there, and two fields of the model's own. -/
structure State where
  /-- Mem, 4096 bytes (R21) -/
  mem : Memory
  /-- V0..VF (R11) -/
  v : Vector Byte 16
  /-- I, the index register (R14) -/
  i : Word
  /-- PC (R15) -/
  pc : Word
  /-- Stack[0..15] (R16) -/
  stack : Vector Word 16
  /-- SP, 0..16 (R17) -/
  sp : Fin 17
  /-- DT, the delay timer (R18) -/
  dt : Byte
  /-- ST, the sound timer (R18) -/
  st : Byte
  /-- Px, 2048 pixels (R19) -/
  px : Display
  /-- Key[0..15] (R20) -/
  key : Vector Bool 16
  /-- the model's own: the host's commands still to be performed, oldest first (R190; log entry 1) -/
  pending : List Command
  /-- the model's own: how many random bytes have been drawn (R121; log entry 2) -/
  draws : Nat
  deriving DecidableEq, Repr

/-- The state after `reset()`, and at power-on (10_state.md R30, R32). Memory lists nothing: every byte holds its
reset content. -/
def State.reset : State where
  mem := []
  v := Vector.replicate 16 0
  i := 0
  pc := 0x0200
  stack := Vector.replicate 16 0
  sp := 0
  dt := 0
  st := 0
  px := Vector.replicate 32 0
  key := Vector.replicate 16 false
  pending := []
  draws := 0

/-- What a meaning answers. -/
abbrev Result := Host.Outcome State Fault Refusal

end Sys2Proof.Machine
end

