-- ==== Sys2Proof/Machine/Memory.lean ====
section
/-! DEFINITION. Core memory: the font and the reset content (10_state.md R30, R31), one byte read and written, the
canonical form, and the checked accesses MemRead and MemWrite (20_memory.md R44, R45). -/

namespace Sys2Proof.Machine

/-- Glyph "0", the only glyph whose bytes the source gives (10_state.md R31). -/
def glyphZero : List Byte := [0xF0, 0x90, 0x90, 0x90, 0xF0]

/-- Glyphs 1 to 7 of R31: PRESUMED, the customary CHIP-8 font (log entry 3). -/
def glyphs1to7 : List Byte :=
  [0x20, 0x60, 0x20, 0x20, 0x70] ++ [0xF0, 0x10, 0xF0, 0x80, 0xF0] ++ [0xF0, 0x10, 0xF0, 0x10, 0xF0] ++
  [0x90, 0x90, 0xF0, 0x10, 0x10] ++ [0xF0, 0x80, 0xF0, 0x10, 0xF0] ++ [0xF0, 0x80, 0xF0, 0x90, 0xF0] ++
  [0xF0, 0x10, 0x20, 0x40, 0x40]

/-- Glyphs 8 to F of R31: PRESUMED, the customary CHIP-8 font (log entry 3). -/
def glyphs8toF : List Byte :=
  [0xF0, 0x90, 0xF0, 0x90, 0xF0] ++ [0xF0, 0x90, 0xF0, 0x10, 0xF0] ++ [0xF0, 0x90, 0xF0, 0x90, 0x90] ++
  [0xE0, 0x90, 0xE0, 0x90, 0xE0] ++ [0xF0, 0x80, 0x80, 0x80, 0xF0] ++ [0xE0, 0x90, 0x90, 0x90, 0xE0] ++
  [0xF0, 0x80, 0xF0, 0x80, 0xF0] ++ [0xF0, 0x80, 0xF0, 0x80, 0x80]

/-- The parameter `FONT`: 80 bytes (00_scope.md R4, 10_state.md R31). -/
def fontTable : List Byte := glyphZero ++ glyphs1to7 ++ glyphs8toF

/-- What an address that memory does not list reads as: its content after reset, the font at 0x000..0x04F and 0x00
elsewhere (10_state.md R30). -/
def resetByte (a : Nat) : Byte := if a < Config.fontBytes then fontTable.getD a 0 else 0

/-- `Mem[a]`: one byte, without any check (00_scope.md section 5). -/
def Memory.byteAt : Memory → Nat → Byte
  | [], a => resetByte a
  | (b, w) :: rest, a => if a < b then resetByte a else if a = b then w else Memory.byteAt rest a

/-- A cell in front of a memory, left out when it holds what an unlisted address reads as. -/
def Memory.consCell (a : Nat) (x : Byte) (m : Memory) : Memory := if x = resetByte a then m else (a, x) :: m

/-- `Mem[a] <- x`, keeping the canonical form. -/
def Memory.setByte : Memory → Nat → Byte → Memory
  | [], a, x => Memory.consCell a x []
  | (b, w) :: rest, a, x =>
    if a < b then Memory.consCell a x ((b, w) :: rest)
    else if a = b then Memory.consCell a x rest
    else (b, w) :: Memory.setByte rest a x

/-- The canonical form: addresses strictly rising and inside memory, no entry equal to what an unlisted address reads
as. -/
abbrev Memory.wf (m : Memory) : Prop :=
  List.Pairwise (fun c d => c.1 < d.1) m ∧ ∀ c ∈ m, c.1 < Config.memSize ∧ c.2 ≠ resetByte c.1

/-- The bytes at `a .. a+n-1`, in ascending address order, without any check. -/
def Memory.bytesAt (m : Memory) (a : Nat) : Nat → List Byte
  | 0 => []
  | n + 1 => m.byteAt a :: Memory.bytesAt m (a + 1) n

/-- `Mem[a+k] <- bytes[k]` for every `k`, without any check. -/
def Memory.setBytes (m : Memory) (a : Nat) : List Byte → Memory
  | [] => m
  | x :: xs => Memory.setBytes (m.setByte a x) (a + 1) xs

/-- `MemRead(addr, n)` (20_memory.md R44): nothing is checked when `n = 0`; else the whole range must lie in memory.
Addresses are natural numbers, not reduced (R46). -/
def memRead (m : Memory) (addr n : Nat) : Except Fault (List Byte) :=
  if n = 0 then .ok []
  else if addr + n - 1 > 4095 then .error (.memoryOutOfBounds (addr + n - 1))
  else .ok (m.bytesAt addr n)

/-- `MemWrite(addr, n, bytes)`, `n` the length of `bytes` (20_memory.md R45): the whole range is checked before any
byte is written. -/
def memWrite (m : Memory) (addr : Nat) (bytes : List Byte) : Except Fault Memory :=
  if addr + bytes.length - 1 > 4095 then .error (.memoryOutOfBounds (addr + bytes.length - 1))
  else .ok (m.setBytes addr bytes)

end Sys2Proof.Machine
end

