-- ==== Sys2Proof/Machine/Ops.lean ====
section
/-! DEFINITION. The named operations of the blocks (10_state.md R24): registers, stack engine, framebuffer, keypad,
timers; and what stands in for taking an exception (60_exceptions.md R170 to R178). -/

namespace Sys2Proof.Machine

/-! ## Register file (10_state.md R11, R14, R15) -/

/-- `V[x]`. No register is hard-wired (10_state.md R11). -/
abbrev State.readV (s : State) (x : Reg) : Byte := s.v[x]

/-- `V[x] <- b`. -/
def State.setV (s : State) (x : Reg) (b : Byte) : State := { s with v := s.v.set x b }

/-- `VF <- b`. -/
def State.setVF (s : State) (b : Byte) : State := s.setV vf b

def State.setI (s : State) (w : Word) : State := { s with i := w }

def State.setPc (s : State) (w : Word) : State := { s with pc := w }

def State.setMem (s : State) (m : Memory) : State := { s with mem := m }

def State.setPx (s : State) (d : Display) : State := { s with px := d }

def State.setDt (s : State) (b : Byte) : State := { s with dt := b }

def State.setSt (s : State) (b : Byte) : State := { s with st := b }

def State.setKey (s : State) (k : Fin 16) (b : Bool) : State := { s with key := s.key.set k b }

def State.setPending (s : State) (cs : List Command) : State := { s with pending := cs }

/-- `V[k], V[k+1], ... <- bytes`, as far as there are registers. -/
def setRegs (v : Vector Byte 16) (k : Nat) : List Byte → Vector Byte 16
  | [] => v
  | b :: bs => setRegs (v.setIfInBounds k b) (k + 1) bs

/-! ## Program counter (10_state.md R15, 30_encoding.md R60) -/

/-- The sequencer's advance, modulo 65536 (30_encoding.md R60). -/
def State.advance (s : State) : State := s.setPc (s.pc + 2)

/-- The skip: `PC` moves two further when the condition holds (41_skips.md R100). -/
def State.skipIf (s : State) (c : Bool) : State := if c then s.setPc (s.pc + 2) else s

/-! ## Failing commands: what stands in for an exception (60_exceptions.md R173, R174, R177, R178)

The core has no trap entry: no state is saved, no mode changes, control goes nowhere. A failing command ends and its
kind is the command's result. There is no return from one either: the host resets, or goes on. -/

/-- `raise kind`: the command being performed ends with this failure (60_exceptions.md R177). -/
def raise (f : Fault) : Result := .fault f

/-- The command goes on with the value of an operation that may have failed, or ends with its failure. -/
def orRaise {α : Type} (r : Except Fault α) (go : α → Result) : Result :=
  match r with
  | .ok a => go a
  | .error f => raise f

/-- The parameter `FAULT_CODE`, at its default: the codes of 60_exceptions.md R171 (log entry 14). -/
def faultCode : Fault → Nat
  | .stackOverflow => 1
  | .stackUnderflow => 2
  | .memoryOutOfBounds _ => 3
  | .invalidKeyIndex _ => 4
  | .romTooLarge _ => 5

/-! ## Stack engine (40_control_transfer.md R86, R87) -/

/-- `push(addr)`: the slot written is the one indexed by the old `SP` (40_control_transfer.md R86). -/
def push (s : State) (addr : Word) : Except Fault State :=
  if h : s.sp.val < 16 then
    .ok { s with stack := s.stack.set s.sp.val addr, sp := ⟨s.sp.val + 1, by omega⟩ }
  else .error .stackOverflow

/-- `pop()`: the slot indexed by the new `SP`; the slot keeps its value (40_control_transfer.md R87). -/
def pop (s : State) : Except Fault (Word × State) :=
  if h : s.sp.val = 0 then .error .stackUnderflow
  else
    have hs : s.sp.val - 1 < 16 := by omega
    .ok (s.stack[s.sp.val - 1], { s with sp := ⟨s.sp.val - 1, by omega⟩ })

/-! ## Framebuffer (44_display.md R140, R141) -/

/-- One row of 64 pixels; no row beyond 31. -/
def Display.row (d : Display) (r : Nat) : BitVec 64 := d[r]?.getD 0

/-- `Px[p]`, `p = col + 64 * row` (00_scope.md section 5). -/
def Display.pixel (d : Display) (p : Nat) : Bool := (d.row (p / 64)).getLsbD (p % 64)

/-- One row with bit `c` set to `b`. -/
def rowWithBit (w : BitVec 64) (c : Nat) (b : Bool) : BitVec 64 :=
  if b then w ||| BitVec.twoPow 64 c else w &&& ~~~BitVec.twoPow 64 c

/-- `Px[p] <- b`. -/
def Display.setPixel (d : Display) (p : Nat) (b : Bool) : Display :=
  d.setIfInBounds (p / 64) (rowWithBit (d.row (p / 64)) (p % 64) b)

/-- `clear()`: zeroes all pixels (44_display.md R140). -/
def clearDisplay : Display := Vector.replicate 32 0

/-- The pixels that row `j` of a sprite touches and the bit that each receives: column `(x + i) mod 64` receives bit
`7 - i`, row `(y + j) mod 32` (44_display.md R141). -/
def touchedRow (x y : Byte) (j : Nat) (row : Byte) : List (Nat × Bool) :=
  (List.range 8).map fun i => ((x.toNat + i) % 64 + 64 * ((y.toNat + j) % 32), row.getLsbD (7 - i))

/-- The pixels that `draw` touches, rows from `j` on, each with its incoming bit. -/
def touchedFrom (x y : Byte) (j : Nat) : List Byte → List (Nat × Bool)
  | [] => []
  | row :: rest => touchedRow x y j row ++ touchedFrom x y (j + 1) rest

/-- The pixels that `draw(x, y, sprite)` touches, in the order of 44_display.md R141. -/
def touched (x y : Byte) (sprite : List Byte) : List (Nat × Bool) := touchedFrom x y 0 sprite

/-- `draw(x, y, sprite)`: every touched pixel becomes its value before the command XOR the incoming bit; the collision
is that some touched pixel was set and its incoming bit is 1 (44_display.md R141). -/
def draw (d : Display) (x y : Byte) (sprite : List Byte) : Display × Bool :=
  let ts := touched x y sprite
  (ts.foldl (fun e t => e.setPixel t.1 (d.pixel t.1 ^^ t.2)) d, ts.any (fun t => d.pixel t.1 && t.2))

/-! ## Keypad (45_keypad_timers.md R152, R156; 60_exceptions.md R186, R187) -/

/-- The sixteen key indices, 0x0 to 0xF. -/
def allKeys : List (Fin 16) := [0, 1, 2, 3, 4, 5, 6, 7, 8, 9, 10, 11, 12, 13, 14, 15]

/-- `get_key(k)` (45_keypad_timers.md R156). -/
def getKey (s : State) (k : Nat) : Except Fault Bool :=
  if h : k < 16 then .ok s.key[k] else .error (.invalidKeyIndex k)

/-- `scan`: from 0x0 to 0xF, the last key that is down (45_keypad_timers.md R152). -/
def scanKeys (s : State) : Option (Fin 16) :=
  allKeys.foldl (fun found k => if s.key[k] then some k else found) none

/-- `key_down(k)` and `key_up(k)`: write latch `k` (60_exceptions.md R186, R187). -/
def writeKey (s : State) (k : Nat) (down : Bool) : Except Fault State :=
  if h : k < 16 then .ok (s.setKey ⟨k, h⟩ down) else .error (.invalidKeyIndex k)

/-! ## Timers (60_exceptions.md R184, R185) -/

/-- One tick of one timer: minus 1, saturating at 0 (60_exceptions.md R184). -/
def tickTimer (t : Byte) : Byte := if t.toNat > 0 then t - 1 else t

/-- `decrement_timers()` (60_exceptions.md R184). -/
def decrementTimers (s : State) : State := (s.setDt (tickTimer s.dt)).setSt (tickTimer s.st)

/-- `is_sound_playing()` (60_exceptions.md R185). -/
def isSoundPlaying (s : State) : Bool := decide (s.st.toNat > 0)

/-! ## Random source (42_load_alu.md R121) -/

/-- The byte drawn for this step: a free value (log entry 2). -/
def drawnByte (s : State) : Byte := Config.randByte s.draws

/-- The next draw is another one. -/
def State.countDraw (s : State) : State := { s with draws := s.draws + 1 }

end Sys2Proof.Machine
end

