-- ==== Sys2Proof/Machine/Operands.lean ====
section
/-! DEFINITION. The operand forms of the instruction set (30_encoding.md R62): a register, an immediate used as it
stands, a zero-extended address, and base `I` plus a small offset (43_index_memory.md). -/

namespace Sys2Proof.Machine

/-- `zext_16(nnn)` (30_encoding.md R62). -/
def addrOperand (nnn : Addr12) : Word := BitVec.ofNat 16 nnn.toNat

/-- The target of `Bnnn`: `(nnn + V[0]) mod 65536`; the register is always V0 (40_control_transfer.md R84). -/
def addrPlusV0 (nnn : Addr12) (s : State) : Word := BitVec.ofNat 16 (nnn.toNat + (s.readV 0).toNat)

/-- The base of a data access: `I` as a natural number, not reduced (20_memory.md R46). -/
def baseAddress (s : State) : Nat := s.i.toNat

/-- The key index of SKP and SKNP: the value of `V[x]`, not the digit `x` (45_keypad_timers.md R150). -/
def keyOperand (x : Reg) (s : State) : Nat := (s.readV x).toNat

/-- The registers V0..Vx, `x + 1` bytes (43_index_memory.md R134). -/
def regsUpTo (x : Reg) (s : State) : List Byte := s.v.toList.take (x.val + 1)

/-- The decimal digits of a byte: hundreds, tens, units, one digit a byte (43_index_memory.md R133). -/
def bcdDigits (b : Byte) : List Byte :=
  [BitVec.ofNat 8 (b.toNat / 100), BitVec.ofNat 8 (b.toNat / 10 % 10), BitVec.ofNat 8 (b.toNat % 10)]

end Sys2Proof.Machine
end

