-- ==== Sys2Proof/Machine/Control.lean ====
section
/-! DEFINITION. Control transfer, SYS and UNKNOWN (40_control_transfer.md R80 to R85). The state given is the one after
the sequencer's advance: `PC = A + 2`. -/

namespace Sys2Proof.Machine

/-- RET (40_control_transfer.md R80): `PC <- pop()`, 16 bits as they are. -/
def execRet (s : State) : Result :=
  orRaise (pop s) fun (target, t) => .next (t.setPc target)

/-- SYS (40_control_transfer.md R81): a no-op; `nnn` is ignored. -/
def execSys (_nnn : Addr12) (s : State) : Result := .next s

/-- JP (40_control_transfer.md R82). -/
def execJp (nnn : Addr12) (s : State) : Result := .next (s.setPc (addrOperand nnn))

/-- CALL (40_control_transfer.md R83): pushes the advanced PC, `A + 2`. -/
def execCall (nnn : Addr12) (s : State) : Result :=
  orRaise (push s s.pc) fun t => .next (t.setPc (addrOperand nnn))

/-- JP_V0 (40_control_transfer.md R84). -/
def execJpV0 (nnn : Addr12) (s : State) : Result := .next (s.setPc (addrPlusV0 nnn s))

/-- UNKNOWN (40_control_transfer.md R85): a no-op; all fields are ignored. -/
def execUnknown (_op : Word) (s : State) : Result := .next s

end Sys2Proof.Machine
end

