-- ==== Sys2Proof/Machine/Flags.lean ====
section
/-! DEFINITION. The ALU block and its flag (42_load_alu.md R122, R123, R124). VF is the only flag of the hardware
(10_state.md R12). -/

namespace Sys2Proof.Machine

/-- The functions of the ALU (42_load_alu.md R122). -/
inductive AluFn where
  | mov | or | and | xor | addi | add | sub | shr | subn | shl
  deriving DecidableEq, Repr

/-- The outputs of the ALU: result, flag, flag write enable (42_load_alu.md R122). -/
structure AluOut where
  r : Byte
  flag : Bool
  flagWe : Bool
  deriving DecidableEq, Repr

/-- `alu(fn, a, b)`, by the table of 42_load_alu.md R122: computed on exact numbers, then reduced modulo 256. -/
def alu (fn : AluFn) (a b : Byte) : AluOut :=
  match fn with
  | .mov => ⟨b, false, false⟩
  | .or => ⟨a ||| b, false, false⟩
  | .and => ⟨a &&& b, false, false⟩
  | .xor => ⟨a ^^^ b, false, false⟩
  | .addi => ⟨BitVec.ofNat 8 (a.toNat + b.toNat), false, false⟩
  | .add => ⟨BitVec.ofNat 8 (a.toNat + b.toNat), decide (a.toNat + b.toNat ≥ 256), true⟩
  | .sub => ⟨BitVec.ofInt 8 ((a.toNat : Int) - b.toNat), decide (a.toNat ≥ b.toNat), true⟩
  | .shr => ⟨BitVec.ofNat 8 (a.toNat / 2), decide (a.toNat % 2 = 1), true⟩
  | .subn => ⟨BitVec.ofInt 8 ((b.toNat : Int) - a.toNat), decide (b.toNat ≥ a.toNat), true⟩
  | .shl => ⟨BitVec.ofNat 8 (a.toNat * 2), decide (a.toNat * 2 ≥ 256), true⟩

/-- `zext_8(flag)`: 0x01 or 0x00 (42_load_alu.md R122). -/
def flagByte (c : Bool) : Byte := if c then 0x01 else 0x00

/-- The parameter `VF_PRIORITY`, at its default (42_load_alu.md R123, 00_scope.md R4; log entry 4). -/
def vfPriority : Config.VfPriority := .flagWins

/-- Whether the source's opcode table lists the flag write after the result write: so for 8xy4, 8xy5, 8xy7; the flag
stands first for 8xy6 and 8xyE (42_load_alu.md R123). -/
def listsFlagLast : AluFn → Bool
  | .shr => false
  | .shl => false
  | .mov => true
  | .or => true
  | .and => true
  | .xor => true
  | .addi => true
  | .add => true
  | .sub => true
  | .subn => true

/-- Whether the flag write survives when the destination is VF (42_load_alu.md R123). -/
def flagSurvives (prio : Config.VfPriority) (fn : AluFn) : Bool :=
  match prio with
  | .flagWins => true
  | .tableOrder => listsFlagLast fn

/-- `V[x] <- r`, and `VF <- zext_8(flag)` when the flag is enabled; of two writes to VF the one of 42_load_alu.md R123
survives. -/
def writeAlu (prio : Config.VfPriority) (fn : AluFn) (x : Reg) (out : AluOut) (s : State) : State :=
  if out.flagWe then
    if flagSurvives prio fn then (s.setV x out.r).setVF (flagByte out.flag)
    else (s.setVF (flagByte out.flag)).setV x out.r
  else s.setV x out.r

/-- One ALU instruction with destination `x` and second operand `b`; both operands are the values before the step
(10_state.md R13). -/
def aluStep (fn : AluFn) (x : Reg) (b : Byte) (s : State) : State :=
  writeAlu vfPriority fn x (alu fn (s.readV x) b) s

end Sys2Proof.Machine
end

