-- ==== Sys2Proof/Machine/Display.lean ====
section
/-! DEFINITION. The display instructions (44_display.md R142, R143). -/

namespace Sys2Proof.Machine

/-- CLS (44_display.md R142). -/
def execCls (s : State) : Result := .next (s.setPx clearDisplay)

/-- DRW (44_display.md R143): the coordinates are the registers before the step; VF is always written. -/
def execDrw (x y : Reg) (n : Fin 16) (s : State) : Result :=
  orRaise (memRead s.mem (baseAddress s) n.val) fun sprite =>
    let (d, collision) := draw s.px (s.readV x) (s.readV y) sprite
    .next ((s.setPx d).setVF (flagByte collision))

end Sys2Proof.Machine
end

