-- ==== Sys2Proof/Machine/IndexMemory.lean ====
section
/-! DEFINITION. The index register and the memory instructions (43_index_memory.md R130 to R136). -/

namespace Sys2Proof.Machine

/-- LD_I (43_index_memory.md R130). -/
def execLdI (nnn : Addr12) (s : State) : Result := .next (s.setI (addrOperand nnn))

/-- ADD_I (43_index_memory.md R131): modulo 65536, no flag. -/
def execAddI (x : Reg) (s : State) : Result := .next (s.setI (BitVec.ofNat 16 (s.i.toNat + (s.readV x).toNat)))

/-- LD_F (43_index_memory.md R132): the full 8-bit value times 5. -/
def execLdF (x : Reg) (s : State) : Result := .next (s.setI (BitVec.ofNat 16 ((s.readV x).toNat * Config.glyphBytes)))

/-- BCD (43_index_memory.md R133). -/
def execBcd (x : Reg) (s : State) : Result :=
  orRaise (memWrite s.mem (baseAddress s) (bcdDigits (s.readV x))) fun m => .next (s.setMem m)

/-- ST_REGS (43_index_memory.md R134); `I` is unchanged (R136). -/
def execStRegs (x : Reg) (s : State) : Result :=
  orRaise (memWrite s.mem (baseAddress s) (regsUpTo x s)) fun m => .next (s.setMem m)

/-- LD_REGS (43_index_memory.md R135); `I` is unchanged (R136). -/
def execLdRegs (x : Reg) (s : State) : Result :=
  orRaise (memRead s.mem (baseAddress s) (x.val + 1)) fun bytes => .next { s with v := setRegs s.v 0 bytes }

end Sys2Proof.Machine
end

