-- ==== Sys2Proof/Machine/KeypadTimers.lean ====
section
/-! DEFINITION. Keypad and timer instructions (45_keypad_timers.md R150 to R155). -/

namespace Sys2Proof.Machine

/-- SKP (45_keypad_timers.md R150). -/
def execSkp (x : Reg) (s : State) : Result :=
  orRaise (getKey s (keyOperand x s)) fun down => .next (s.skipIf down)

/-- SKNP (45_keypad_timers.md R151). -/
def execSknp (x : Reg) (s : State) : Result :=
  orRaise (getKey s (keyOperand x s)) fun down => .next (s.skipIf (!down))

/-- LD_VX_DT (45_keypad_timers.md R153). -/
def execLdVxDt (x : Reg) (s : State) : Result := .next (s.setV x s.dt)

/-- LD_VX_K (45_keypad_timers.md R152): a polling step; while no key is down PC goes back to this instruction, else
the highest key that is down goes to `V[x]`. -/
def execLdVxK (x : Reg) (s : State) : Result :=
  match scanKeys s with
  | none => .next (s.setPc (s.pc - 2))
  | some k => .next (s.setV x (BitVec.ofNat 8 k.val))

/-- LD_DT_VX (45_keypad_timers.md R154). -/
def execLdDtVx (x : Reg) (s : State) : Result := .next (s.setDt (s.readV x))

/-- LD_ST_VX (45_keypad_timers.md R155). -/
def execLdStVx (x : Reg) (s : State) : Result := .next (s.setSt (s.readV x))

end Sys2Proof.Machine
end

