-- ==== Sys2Proof/Machine/LoadAlu.lean ====
section
/-! DEFINITION. Register loads, the ALU instructions and RND (42_load_alu.md R110 to R121). -/

namespace Sys2Proof.Machine

/-- LD_IMM (42_load_alu.md R110). -/
def execLdImm (x : Reg) (kk : Byte) (s : State) : Result := .next (aluStep .mov x kk s)

/-- ADD_IMM (42_load_alu.md R111): no carry is recorded. -/
def execAddImm (x : Reg) (kk : Byte) (s : State) : Result := .next (aluStep .addi x kk s)

/-- LD_REG (42_load_alu.md R112). -/
def execLdReg (x y : Reg) (s : State) : Result := .next (aluStep .mov x (s.readV y) s)

/-- OR (42_load_alu.md R113). -/
def execOr (x y : Reg) (s : State) : Result := .next (aluStep .or x (s.readV y) s)

/-- AND (42_load_alu.md R114). -/
def execAnd (x y : Reg) (s : State) : Result := .next (aluStep .and x (s.readV y) s)

/-- XOR (42_load_alu.md R115). -/
def execXor (x y : Reg) (s : State) : Result := .next (aluStep .xor x (s.readV y) s)

/-- ADD_REG (42_load_alu.md R116). -/
def execAddReg (x y : Reg) (s : State) : Result := .next (aluStep .add x (s.readV y) s)

/-- SUB (42_load_alu.md R117). -/
def execSub (x y : Reg) (s : State) : Result := .next (aluStep .sub x (s.readV y) s)

/-- SHR (42_load_alu.md R118): the ALU does not use its second operand; `V[y]` is neither read nor written. -/
def execShr (x _y : Reg) (s : State) : Result := .next (aluStep .shr x 0 s)

/-- SUBN (42_load_alu.md R119). -/
def execSubn (x y : Reg) (s : State) : Result := .next (aluStep .subn x (s.readV y) s)

/-- SHL (42_load_alu.md R120): the ALU does not use its second operand; `V[y]` is neither read nor written. -/
def execShl (x _y : Reg) (s : State) : Result := .next (aluStep .shl x 0 s)

/-- RND (42_load_alu.md R121): `V[x] <- rand_byte & kk`, the byte drawn for this step. -/
def execRnd (x : Reg) (kk : Byte) (s : State) : Result := .next ((s.setV x (drawnByte s &&& kk)).countDraw)

end Sys2Proof.Machine
end

