-- ==== Sys2Proof/Syntax.lean ====
section
/-! DEFINITION. The instructions: one constructor per row of spec/opcode_table.json, in the dispatch order of
30_encoding.md R64 (35 instructions and UNKNOWN, R65). -/

namespace Sys2Proof

/-- One constructor per kind of 30_encoding.md R64, with the operand fields of R62 and R63. -/
inductive Instr where
  /-- CLS: 00E0: clear the display (44_display.md R142). -/
  | cls
  /-- RET: 00EE: return from subroutine (40_control_transfer.md R80). -/
  | ret
  /-- SYS: 0nnn, all of class 0 but 00E0 and 00EE: a no-op (R81). -/
  | sys (nnn : Addr12)
  /-- JP: 1nnn: jump (R82). -/
  | jp (nnn : Addr12)
  /-- CALL: 2nnn: call subroutine (R83). -/
  | call (nnn : Addr12)
  /-- SE_IMM: 3xkk: skip if V[x] = kk (41_skips.md R101). -/
  | seImm (x : Reg) (kk : Byte)
  /-- SNE_IMM: 4xkk: skip if V[x] differs from kk (R102). -/
  | sneImm (x : Reg) (kk : Byte)
  /-- SE_REG: 5xy0: skip if V[x] = V[y] (R103). -/
  | seReg (x : Reg) (y : Reg)
  /-- LD_IMM: 6xkk: load immediate (42_load_alu.md R110). -/
  | ldImm (x : Reg) (kk : Byte)
  /-- ADD_IMM: 7xkk: add immediate (R111). -/
  | addImm (x : Reg) (kk : Byte)
  /-- LD_REG: 8xy0: copy register (R112). -/
  | ldReg (x : Reg) (y : Reg)
  /-- OR: 8xy1 (R113). -/
  | or (x : Reg) (y : Reg)
  /-- AND: 8xy2 (R114). -/
  | and (x : Reg) (y : Reg)
  /-- XOR: 8xy3 (R115). -/
  | xor (x : Reg) (y : Reg)
  /-- ADD_REG: 8xy4: add with carry out (R116). -/
  | addReg (x : Reg) (y : Reg)
  /-- SUB: 8xy5: subtract (R117). -/
  | sub (x : Reg) (y : Reg)
  /-- SHR: 8xy6: shift right by one; `y` is carried but not used (R118, R67). -/
  | shr (x : Reg) (y : Reg)
  /-- SUBN: 8xy7: reverse subtract (R119). -/
  | subn (x : Reg) (y : Reg)
  /-- SHL: 8xyE: shift left by one; `y` is carried but not used (R120, R67). -/
  | shl (x : Reg) (y : Reg)
  /-- SNE_REG: 9xy0: skip if V[x] differs from V[y] (R104). -/
  | sneReg (x : Reg) (y : Reg)
  /-- LD_I: Annn: load index (43_index_memory.md R130). -/
  | ldI (nnn : Addr12)
  /-- JP_V0: Bnnn: jump with offset V0 (R84). -/
  | jpV0 (nnn : Addr12)
  /-- RND: Cxkk: masked random byte (R121). -/
  | rnd (x : Reg) (kk : Byte)
  /-- DRW: Dxyn: draw an n-byte sprite (R143). -/
  | drw (x : Reg) (y : Reg) (n : Fin 16)
  /-- SKP: Ex9E: skip if key V[x] is pressed (45_keypad_timers.md R150). -/
  | skp (x : Reg)
  /-- SKNP: ExA1: skip if key V[x] is not pressed (R151). -/
  | sknp (x : Reg)
  /-- LD_VX_DT: Fx07: read the delay timer (R153). -/
  | ldVxDt (x : Reg)
  /-- LD_VX_K: Fx0A: wait for a key, by polling (R152). -/
  | ldVxK (x : Reg)
  /-- LD_DT_VX: Fx15: set the delay timer (R154). -/
  | ldDtVx (x : Reg)
  /-- LD_ST_VX: Fx18: set the sound timer (R155). -/
  | ldStVx (x : Reg)
  /-- ADD_I: Fx1E: add register to index (R131). -/
  | addI (x : Reg)
  /-- LD_F: Fx29: point at a font glyph (R132). -/
  | ldF (x : Reg)
  /-- BCD: Fx33: store decimal digits (R133). -/
  | bcd (x : Reg)
  /-- ST_REGS: Fx55: store V0..Vx (R134). -/
  | stRegs (x : Reg)
  /-- LD_REGS: Fx65: load V0..Vx (R135). -/
  | ldRegs (x : Reg)
  /-- UNKNOWN: every other word: a no-op; it carries the word (R85, R66). -/
  | unknown (op : Word)
  deriving DecidableEq, Repr

/-- The kind's name as 30_encoding.md R64 and spec/opcode_table.json spell it. -/
def Instr.mnemonic : Instr → String
  | .cls => "CLS"
  | .ret => "RET"
  | .sys _ => "SYS"
  | .jp _ => "JP"
  | .call _ => "CALL"
  | .seImm _ _ => "SE_IMM"
  | .sneImm _ _ => "SNE_IMM"
  | .seReg _ _ => "SE_REG"
  | .ldImm _ _ => "LD_IMM"
  | .addImm _ _ => "ADD_IMM"
  | .ldReg _ _ => "LD_REG"
  | .or _ _ => "OR"
  | .and _ _ => "AND"
  | .xor _ _ => "XOR"
  | .addReg _ _ => "ADD_REG"
  | .sub _ _ => "SUB"
  | .shr _ _ => "SHR"
  | .subn _ _ => "SUBN"
  | .shl _ _ => "SHL"
  | .sneReg _ _ => "SNE_REG"
  | .ldI _ => "LD_I"
  | .jpV0 _ => "JP_V0"
  | .rnd _ _ => "RND"
  | .drw _ _ _ => "DRW"
  | .skp _ => "SKP"
  | .sknp _ => "SKNP"
  | .ldVxDt _ => "LD_VX_DT"
  | .ldVxK _ => "LD_VX_K"
  | .ldDtVx _ => "LD_DT_VX"
  | .ldStVx _ => "LD_ST_VX"
  | .addI _ => "ADD_I"
  | .ldF _ => "LD_F"
  | .bcd _ => "BCD"
  | .stRegs _ => "ST_REGS"
  | .ldRegs _ => "LD_REGS"
  | .unknown _ => "UNKNOWN"

end Sys2Proof
end

