-- ==== Sys2Proof/WellFormed.lean ====
section
/-! DEFINITION. Which terms of `Instr` stand for a word of their own kind. Register fields, immediates and addresses
are within their widths by type; what is left to check is the operand of SYS (30_encoding.md R64 rows 1 to 3) and the
word that UNKNOWN carries (R66). -/

namespace Sys2Proof

/-- The 17488 words that are UNKNOWN, by class, as 30_encoding.md R66 lists them. -/
def isUnknownWord (op : Word) : Bool :=
  let n0 := (op.extractLsb' 12 4).toNat
  let n3 := (op.extractLsb' 0 4).toNat
  let kk := (op.extractLsb' 0 8).toNat
  if n0 = 0x5 then n3 != 0
  else if n0 = 0x8 then [0x8, 0x9, 0xA, 0xB, 0xC, 0xD, 0xF].contains n3
  else if n0 = 0x9 then n3 != 0
  else if n0 = 0xE then !([0x9E, 0xA1].contains kk)
  else if n0 = 0xF then !([0x07, 0x0A, 0x15, 0x18, 0x1E, 0x29, 0x33, 0x55, 0x65].contains kk)
  else false

/-- An instruction is well formed when its word is of its own kind: SYS does not carry the operand of CLS or RET
(30_encoding.md R64 rows 1, 2), and UNKNOWN carries a word of R66. Every other constructor always is. -/
def Instr.wf : Instr → Bool
  | .sys nnn => nnn != 0x0E0 && nnn != 0x0EE
  | .unknown op => isUnknownWord op
  | .cls => true
  | .ret => true
  | .jp _ => true
  | .call _ => true
  | .seImm _ _ => true
  | .sneImm _ _ => true
  | .seReg _ _ => true
  | .ldImm _ _ => true
  | .addImm _ _ => true
  | .ldReg _ _ => true
  | .or _ _ => true
  | .and _ _ => true
  | .xor _ _ => true
  | .addReg _ _ => true
  | .sub _ _ => true
  | .shr _ _ => true
  | .subn _ _ => true
  | .shl _ _ => true
  | .sneReg _ _ => true
  | .ldI _ => true
  | .jpV0 _ => true
  | .rnd _ _ => true
  | .drw _ _ _ => true
  | .skp _ => true
  | .sknp _ => true
  | .ldVxDt _ => true
  | .ldVxK _ => true
  | .ldDtVx _ => true
  | .ldStVx _ => true
  | .addI _ => true
  | .ldF _ => true
  | .bcd _ => true
  | .stRegs _ => true
  | .ldRegs _ => true

end Sys2Proof
end

