-- ==== Sys2Proof/Decode.lean ====
section
/-! DEFINITION. The decoder, total on every word and on every byte list (30_encoding.md R61, R62, R64, R65, R70); the
first-match table of R64 as rows of mask and match; the encoder; the assembly notation of R69. -/

namespace Sys2Proof

/-! ## Fields (30_encoding.md R62) -/

/-- The decoder's outputs beside the kind: four nibbles, most significant first, and the derived operands
(30_encoding.md R62, 10_state.md R24). -/
structure Fields where
  n0 : BitVec 4
  n1 : BitVec 4
  n2 : BitVec 4
  n3 : BitVec 4
  nnn : Addr12
  kk : Byte
  x : Reg
  y : Reg
  n : Fin 16
  deriving DecidableEq, Repr

def fieldN0 (op : Word) : BitVec 4 := op.extractLsb' 12 4
def fieldN1 (op : Word) : BitVec 4 := op.extractLsb' 8 4
def fieldN2 (op : Word) : BitVec 4 := op.extractLsb' 4 4
def fieldN3 (op : Word) : BitVec 4 := op.extractLsb' 0 4

/-- `nnn = op[11:0]`. -/
def fieldNnn (op : Word) : Addr12 := op.extractLsb' 0 12

/-- `kk = op[7:0]`. -/
def fieldKk (op : Word) : Byte := op.extractLsb' 0 8

/-- `x = n1`, a register index. -/
def fieldX (op : Word) : Reg := (fieldN1 op).toFin

/-- `y = n2`, a register index. -/
def fieldY (op : Word) : Reg := (fieldN2 op).toFin

/-- `n = n3`, the sprite height in bytes. -/
def fieldN (op : Word) : Fin 16 := (fieldN3 op).toFin

/-- All the fields of a word (30_encoding.md R62). -/
def fields (op : Word) : Fields where
  n0 := fieldN0 op
  n1 := fieldN1 op
  n2 := fieldN2 op
  n3 := fieldN3 op
  nnn := fieldNnn op
  kk := fieldKk op
  x := fieldX op
  y := fieldY op
  n := fieldN op

/-! ## The decoder (30_encoding.md R64, R65, R70) -/

/-- Class 0: CLS and RET compare all 16 bits, every other word is SYS (30_encoding.md R64 rows 1 to 3; 90_conflicts.md
C7). -/
def decodeClass0 (op : Word) : Instr :=
  if op = 0x00E0 then .cls
  else if op = 0x00EE then .ret
  else .sys (fieldNnn op)

/-- Class 8: `n3` selects the operation (30_encoding.md R64 rows 11 to 19). -/
def decodeClass8 (op : Word) : Instr :=
  match (fieldN3 op).toNat with
  | 0x0 => .ldReg (fieldX op) (fieldY op)
  | 0x1 => .or (fieldX op) (fieldY op)
  | 0x2 => .and (fieldX op) (fieldY op)
  | 0x3 => .xor (fieldX op) (fieldY op)
  | 0x4 => .addReg (fieldX op) (fieldY op)
  | 0x5 => .sub (fieldX op) (fieldY op)
  | 0x6 => .shr (fieldX op) (fieldY op)
  | 0x7 => .subn (fieldX op) (fieldY op)
  | 0xE => .shl (fieldX op) (fieldY op)
  | _ => .unknown op

/-- Class E: `kk` selects the operation (30_encoding.md R64 rows 25, 26). -/
def decodeClassE (op : Word) : Instr :=
  match (fieldKk op).toNat with
  | 0x9E => .skp (fieldX op)
  | 0xA1 => .sknp (fieldX op)
  | _ => .unknown op

/-- Class F: `kk` selects the operation (30_encoding.md R64 rows 27 to 35). -/
def decodeClassF (op : Word) : Instr :=
  match (fieldKk op).toNat with
  | 0x07 => .ldVxDt (fieldX op)
  | 0x0A => .ldVxK (fieldX op)
  | 0x15 => .ldDtVx (fieldX op)
  | 0x18 => .ldStVx (fieldX op)
  | 0x1E => .addI (fieldX op)
  | 0x29 => .ldF (fieldX op)
  | 0x33 => .bcd (fieldX op)
  | 0x55 => .stRegs (fieldX op)
  | 0x65 => .ldRegs (fieldX op)
  | _ => .unknown op

/-- The decoder: total on all 65536 words, no failure (30_encoding.md R65, R70); a word that no row of R64 matches is
UNKNOWN. -/
def decode (op : Word) : Instr :=
  match (fieldN0 op).toNat with
  | 0x0 => decodeClass0 op
  | 0x1 => .jp (fieldNnn op)
  | 0x2 => .call (fieldNnn op)
  | 0x3 => .seImm (fieldX op) (fieldKk op)
  | 0x4 => .sneImm (fieldX op) (fieldKk op)
  | 0x5 => if (fieldN3 op).toNat = 0 then .seReg (fieldX op) (fieldY op) else .unknown op
  | 0x6 => .ldImm (fieldX op) (fieldKk op)
  | 0x7 => .addImm (fieldX op) (fieldKk op)
  | 0x8 => decodeClass8 op
  | 0x9 => if (fieldN3 op).toNat = 0 then .sneReg (fieldX op) (fieldY op) else .unknown op
  | 0xA => .ldI (fieldNnn op)
  | 0xB => .jpV0 (fieldNnn op)
  | 0xC => .rnd (fieldX op) (fieldKk op)
  | 0xD => .drw (fieldX op) (fieldY op) (fieldN op)
  | 0xE => decodeClassE op
  | 0xF => decodeClassF op
  | _ => .unknown op

/-! ## Bytes and words (20_memory.md R42) -/

/-- The fetch's byte order: the high byte stands first (20_memory.md R42, 30_encoding.md R61). -/
def wordOfBytes (hi lo : Byte) : Word := BitVec.ofNat 16 (hi.toNat * 256 + lo.toNat)

/-- The byte at the lower address: `n0` and `n1`. -/
def highByte (op : Word) : Byte := op.extractLsb' 8 8

/-- The byte at the higher address: `n2` and `n3`. -/
def lowByte (op : Word) : Byte := op.extractLsb' 0 8

/-- Why a byte list holds no instruction. -/
inductive DecodeError where
  /-- fewer than two bytes are left: raised by `decodeBytes`; safe, nothing is decoded -/
  | truncated (bytes : Nat)
  deriving DecidableEq, Repr

/-- The decoder on bytes: the first instruction and the bytes after it. -/
def decodeBytes : List Byte → Except DecodeError (Instr × List Byte)
  | hi :: lo :: rest => .ok (decode (wordOfBytes hi lo), rest)
  | [_] => .error (.truncated 1)
  | [] => .error (.truncated 0)

/-- The instruction of a table word: its 16 bits laid out as two bytes, high byte first, and decoded. -/
def decodeTableWord (nbits w : Nat) : Option Instr :=
  let op : Word := BitVec.ofNat 16 (w % 2 ^ nbits)
  match decodeBytes [highByte op, lowByte op] with
  | .ok (i, _) => some i
  | .error _ => none

/-! ## The opcode map as rows of mask and match (30_encoding.md R64) -/

/-- One row of the table of 30_encoding.md R64: a word matches when `op & mask = pattern`. -/
structure OpcodeRow where
  mnemonic : String
  mask : Word
  pattern : Word
  deriving DecidableEq, Repr

def rowsFixedAndJumps : List OpcodeRow :=
  [⟨"CLS", 0xFFFF, 0x00E0⟩, ⟨"RET", 0xFFFF, 0x00EE⟩, ⟨"SYS", 0xF000, 0x0000⟩, ⟨"JP", 0xF000, 0x1000⟩,
   ⟨"CALL", 0xF000, 0x2000⟩]

def rowsSkipsAndImmediates : List OpcodeRow :=
  [⟨"SE_IMM", 0xF000, 0x3000⟩, ⟨"SNE_IMM", 0xF000, 0x4000⟩, ⟨"SE_REG", 0xF00F, 0x5000⟩,
   ⟨"LD_IMM", 0xF000, 0x6000⟩, ⟨"ADD_IMM", 0xF000, 0x7000⟩]

def rowsClass8 : List OpcodeRow :=
  [⟨"LD_REG", 0xF00F, 0x8000⟩, ⟨"OR", 0xF00F, 0x8001⟩, ⟨"AND", 0xF00F, 0x8002⟩, ⟨"XOR", 0xF00F, 0x8003⟩,
   ⟨"ADD_REG", 0xF00F, 0x8004⟩, ⟨"SUB", 0xF00F, 0x8005⟩, ⟨"SHR", 0xF00F, 0x8006⟩, ⟨"SUBN", 0xF00F, 0x8007⟩,
   ⟨"SHL", 0xF00F, 0x800E⟩]

def rowsClasses9ToD : List OpcodeRow :=
  [⟨"SNE_REG", 0xF00F, 0x9000⟩, ⟨"LD_I", 0xF000, 0xA000⟩, ⟨"JP_V0", 0xF000, 0xB000⟩, ⟨"RND", 0xF000, 0xC000⟩,
   ⟨"DRW", 0xF000, 0xD000⟩]

def rowsClassesEAndF : List OpcodeRow :=
  [⟨"SKP", 0xF0FF, 0xE09E⟩, ⟨"SKNP", 0xF0FF, 0xE0A1⟩, ⟨"LD_VX_DT", 0xF0FF, 0xF007⟩, ⟨"LD_VX_K", 0xF0FF, 0xF00A⟩,
   ⟨"LD_DT_VX", 0xF0FF, 0xF015⟩, ⟨"LD_ST_VX", 0xF0FF, 0xF018⟩, ⟨"ADD_I", 0xF0FF, 0xF01E⟩, ⟨"LD_F", 0xF0FF, 0xF029⟩,
   ⟨"BCD", 0xF0FF, 0xF033⟩, ⟨"ST_REGS", 0xF0FF, 0xF055⟩, ⟨"LD_REGS", 0xF0FF, 0xF065⟩]

/-- The 36 rows of 30_encoding.md R64 in their order; the last matches every word. -/
def opcodeTable : List OpcodeRow :=
  rowsFixedAndJumps ++ rowsSkipsAndImmediates ++ rowsClass8 ++ rowsClasses9ToD ++ rowsClassesEAndF
    ++ [⟨"UNKNOWN", 0x0000, 0x0000⟩]

/-- The kind of the first row that a word matches (30_encoding.md R64: first match wins). -/
def firstMatch (op : Word) : Option String :=
  (opcodeTable.find? (fun r => op &&& r.mask == r.pattern)).map (·.mnemonic)

/-! ## The encoder -/

/-- A word of format NNN (30_encoding.md R63): a class and a 12-bit address. -/
def wordNnn (c : Nat) (nnn : Addr12) : Word := BitVec.ofNat 16 (c * 4096 + nnn.toNat)

/-- A word of formats XKK and XST (30_encoding.md R63): a class, a register and the second byte. -/
def wordXkk (c : Nat) (x : Reg) (kk : Nat) : Word := BitVec.ofNat 16 (c * 4096 + x.val * 256 + kk)

/-- A word of formats XYS and XYN (30_encoding.md R63): a class, two registers and the last digit. -/
def wordXyn (c : Nat) (x y : Reg) (n : Nat) : Word := BitVec.ofNat 16 (c * 4096 + x.val * 256 + y.val * 16 + n)

/-- The word of an instruction, from the patterns of 30_encoding.md R64. -/
def encode : Instr → Word
  | .cls => 0x00E0
  | .ret => 0x00EE
  | .sys nnn => wordNnn 0x0 nnn
  | .jp nnn => wordNnn 0x1 nnn
  | .call nnn => wordNnn 0x2 nnn
  | .seImm x kk => wordXkk 0x3 x kk.toNat
  | .sneImm x kk => wordXkk 0x4 x kk.toNat
  | .seReg x y => wordXyn 0x5 x y 0x0
  | .ldImm x kk => wordXkk 0x6 x kk.toNat
  | .addImm x kk => wordXkk 0x7 x kk.toNat
  | .ldReg x y => wordXyn 0x8 x y 0x0
  | .or x y => wordXyn 0x8 x y 0x1
  | .and x y => wordXyn 0x8 x y 0x2
  | .xor x y => wordXyn 0x8 x y 0x3
  | .addReg x y => wordXyn 0x8 x y 0x4
  | .sub x y => wordXyn 0x8 x y 0x5
  | .shr x y => wordXyn 0x8 x y 0x6
  | .subn x y => wordXyn 0x8 x y 0x7
  | .shl x y => wordXyn 0x8 x y 0xE
  | .sneReg x y => wordXyn 0x9 x y 0x0
  | .ldI nnn => wordNnn 0xA nnn
  | .jpV0 nnn => wordNnn 0xB nnn
  | .rnd x kk => wordXkk 0xC x kk.toNat
  | .drw x y n => wordXyn 0xD x y n.val
  | .skp x => wordXkk 0xE x 0x9E
  | .sknp x => wordXkk 0xE x 0xA1
  | .ldVxDt x => wordXkk 0xF x 0x07
  | .ldVxK x => wordXkk 0xF x 0x0A
  | .ldDtVx x => wordXkk 0xF x 0x15
  | .ldStVx x => wordXkk 0xF x 0x18
  | .addI x => wordXkk 0xF x 0x1E
  | .ldF x => wordXkk 0xF x 0x29
  | .bcd x => wordXkk 0xF x 0x33
  | .stRegs x => wordXkk 0xF x 0x55
  | .ldRegs x => wordXkk 0xF x 0x65
  | .unknown op => op

/-- The two bytes of an instruction in memory, high byte at the lower address (30_encoding.md R62). -/
def encodeBytes (i : Instr) : List Byte := [highByte (encode i), lowByte (encode i)]

/-! ## Assembly notation (30_encoding.md R69; log entry 24) -/

/-- A hexadecimal digit. -/
def hexDigit (n : Nat) : String :=
  ["0", "1", "2", "3", "4", "5", "6", "7", "8", "9", "A", "B", "C", "D", "E", "F"].getD n "?"

/-- A byte as two hexadecimal digits. -/
def hexByte (b : Byte) : String := "0x" ++ hexDigit (b.toNat / 16) ++ hexDigit (b.toNat % 16)

/-- An address as three hexadecimal digits. -/
def hexAddr (a : Addr12) : String :=
  "0x" ++ hexDigit (a.toNat / 256) ++ hexDigit (a.toNat / 16 % 16) ++ hexDigit (a.toNat % 16)

/-- A word as four hexadecimal digits. -/
def hexWord (w : Word) : String :=
  "0x" ++ hexDigit (w.toNat / 4096) ++ hexDigit (w.toNat / 256 % 16) ++ hexDigit (w.toNat / 16 % 16)
    ++ hexDigit (w.toNat % 16)

/-- A register's name, V0..VF (10_state.md R11). -/
def regName (x : Reg) : String := "V" ++ hexDigit x.val

/-- The assembly text of an instruction, by the table of 30_encoding.md R69. -/
def Instr.assembly : Instr → String
  | .cls => "CLS"
  | .ret => "RET"
  | .sys nnn => "SYS " ++ hexAddr nnn
  | .jp nnn => "JP " ++ hexAddr nnn
  | .call nnn => "CALL " ++ hexAddr nnn
  | .seImm x kk => "SE " ++ regName x ++ ", " ++ hexByte kk
  | .sneImm x kk => "SNE " ++ regName x ++ ", " ++ hexByte kk
  | .seReg x y => "SE " ++ regName x ++ ", " ++ regName y
  | .ldImm x kk => "LD " ++ regName x ++ ", " ++ hexByte kk
  | .addImm x kk => "ADD " ++ regName x ++ ", " ++ hexByte kk
  | .ldReg x y => "LD " ++ regName x ++ ", " ++ regName y
  | .or x y => "OR " ++ regName x ++ ", " ++ regName y
  | .and x y => "AND " ++ regName x ++ ", " ++ regName y
  | .xor x y => "XOR " ++ regName x ++ ", " ++ regName y
  | .addReg x y => "ADD " ++ regName x ++ ", " ++ regName y
  | .sub x y => "SUB " ++ regName x ++ ", " ++ regName y
  | .shr x _ => "SHR " ++ regName x
  | .subn x y => "SUBN " ++ regName x ++ ", " ++ regName y
  | .shl x _ => "SHL " ++ regName x
  | .sneReg x y => "SNE " ++ regName x ++ ", " ++ regName y
  | .ldI nnn => "LD I, " ++ hexAddr nnn
  | .jpV0 nnn => "JP V0, " ++ hexAddr nnn
  | .rnd x kk => "RND " ++ regName x ++ ", " ++ hexByte kk
  | .drw x y n => "DRW " ++ regName x ++ ", " ++ regName y ++ ", " ++ hexDigit n.val
  | .skp x => "SKP " ++ regName x
  | .sknp x => "SKNP " ++ regName x
  | .ldVxDt x => "LD " ++ regName x ++ ", DT"
  | .ldVxK x => "LD " ++ regName x ++ ", K"
  | .ldDtVx x => "LD DT, " ++ regName x
  | .ldStVx x => "LD ST, " ++ regName x
  | .addI x => "ADD I, " ++ regName x
  | .ldF x => "LD F, " ++ regName x
  | .bcd x => "LD B, " ++ regName x
  | .stRegs x => "LD [I], " ++ regName x
  | .ldRegs x => "LD " ++ regName x ++ ", [I]"
  | .unknown op => ".word " ++ hexWord op

end Sys2Proof
end

