-- ==== Sys2Proof/Machine/Fetch.lean ====
section
/-! DEFINITION. The fetch (30_encoding.md R61), and where an instruction is placed so that the next step fetches it. -/

namespace Sys2Proof.Machine

/-- Two fetched bytes as an opcode, the byte at the lower address first (20_memory.md R42). -/
def wordOfFetched (bytes : List Byte) : Word := wordOfBytes (bytes.getD 0 0) (bytes.getD 1 0)

/-- `fetch(Mem, pc)` (30_encoding.md R61): it fails exactly when `pc > 0xFFE`; no alignment is required of `pc`. -/
def fetch (m : Memory) (pc : Word) : Except Fault Word := (memRead m pc.toNat 2).map wordOfFetched

/-- The address at which the next step fetches: `PC`, or the reset PC where the bytes at `PC` do not exist. -/
def fetchPlace (s : State) : Word := if s.pc.toNat > 0xFFE then 0x0200 else s.pc

/-- The state whose next step is the execution of the word `op` (log entry 15): the word stands at the fetch address,
high byte first, and no host command stands before it. -/
def placeWord (s : State) (op : Word) : State :=
  { s with
    mem := s.mem.setBytes (fetchPlace s).toNat [highByte op, lowByte op]
    pc := fetchPlace s
    pending := [] }

end Sys2Proof.Machine
end

