-- ==== Sys2Proof/Machine/Commands.lean ====
section
/-! DEFINITION. The host's commands and observers (60_exceptions.md R180 to R190), the instruction cycle among them
(30_encoding.md R60), and the state that a failing command leaves (R173, R174, R194). -/

namespace Sys2Proof.Machine

/-- `execute_instruction_cycle()` (30_encoding.md R60, 60_exceptions.md R183): fetch at PC, advance PC by 2, decode,
execute; the instruction sees `PC = A + 2`. -/
def cycle (s : State) : Result :=
  orRaise (fetch s.mem s.pc) fun op => exec (decode op) s.advance

/-- `reset()` (70_reset_and_hazards.md R200): the ten items of the core at their reset values, whatever they were. The
host's remaining commands and the count of draws are no state of the core and stay (log entry 22). -/
def resetCore (s : State) : State := { State.reset with pending := s.pending, draws := s.draws }

/-- `load_rom(bytes)` (60_exceptions.md R182). -/
def loadRom (bytes : List Byte) (s : State) : Result :=
  if bytes.length > Config.romMax then raise (.romTooLarge bytes.length)
  else .next (s.setMem (s.mem.setBytes Config.romBase bytes))

/-- One host command, to completion (60_exceptions.md R180, R190). -/
def command (c : Command) (s : State) : Result :=
  match c with
  | .reset => .next (resetCore s)
  | .loadRom bytes => loadRom bytes s
  | .cycle => cycle s
  | .decrementTimers => .next (decrementTimers s)
  | .keyDown k => orRaise (writeKey s k true) fun t => .next t
  | .keyUp k => orRaise (writeKey s k false) fun t => .next t

/-- The command that the core performs next, and the state with that command taken from the host's list; where the
list is empty the host calls `execute_instruction_cycle()` (log entry 1). -/
def takeCommand (s : State) : Command × State :=
  match s.pending with
  | [] => (.cycle, s)
  | c :: rest => (c, s.setPending rest)

/-- The host's next command, to completion. -/
def performNext (s : State) : Result := command (takeCommand s).1 (takeCommand s).2

/-! ## After a failure (60_exceptions.md R173, R174, R194; log entry 6) -/

/-- The state that a failing command leaves: unchanged after a failed fetch (R173); `PC = A + 2` and nothing else
changed after a failed execute phase (R174); unchanged after a failed host command (R182, R186, R187). -/
def stateLeft (c : Command) (s : State) : State :=
  match c with
  | .cycle =>
    match fetch s.mem s.pc with
    | .ok _ => s.advance
    | .error _ => s
  | .reset => s
  | .loadRom _ => s
  | .decrementTimers => s
  | .keyDown _ => s
  | .keyUp _ => s

/-- The state after a command, completed or failed: the core keeps no memory of a failure and accepts the next command
(60_exceptions.md R194). -/
def stateAfter (c : Command) (s : State) : State :=
  match command c s with
  | .next t => t
  | .fault _ => stateLeft c s
  | .refused _ => s

/-- The code that a command signals to the host, 0 when it completed (60_exceptions.md R171). -/
def resultCode (c : Command) (s : State) : Nat :=
  match command c s with
  | .next _ => 0
  | .fault f => faultCode f
  | .refused _ => 0

/-- A host that carries on after failures: the commands in order, with the codes signalled and the state left
(60_exceptions.md R178, R190, R194). -/
def session : List Command → State → List Nat × State
  | [], s => ([], s)
  | c :: rest, s => (resultCode c s :: (session rest (stateAfter c s)).1, (session rest (stateAfter c s)).2)

/-! ## Observers (60_exceptions.md R185, R188, R189): they change nothing -/

/-- `get_display_buffer()`: the 2048 pixels, index = x + 64 * y (60_exceptions.md R188). -/
def displayBuffer (s : State) : List Bool := (List.range 2048).map s.px.pixel

/-- What `debug_info()` shows, as data (60_exceptions.md R189; log entry 23). -/
structure DebugInfo where
  v : Vector Byte 16
  i : Word
  pc : Word
  sp : Fin 17
  stack : Vector Word 16
  dt : Byte
  st : Byte
  /-- the decode of the word at PC, where that fetch is in bounds -/
  pendingInstr : Option Instr
  deriving DecidableEq, Repr

/-- `debug_info()`, without side effect (60_exceptions.md R189). -/
def debugInfo (s : State) : DebugInfo where
  v := s.v
  i := s.i
  pc := s.pc
  sp := s.sp
  stack := s.stack
  dt := s.dt
  st := s.st
  pendingInstr := (fetch s.mem s.pc).toOption.map decode

end Sys2Proof.Machine
end

