-- ==== Sys2Proof/Machine/Step.lean ====
section
/-! DEFINITION. One step of the machine: the host's next command, to completion (60_exceptions.md R190); where none is
listed, one instruction cycle (30_encoding.md R60). -/

namespace Sys2Proof.Machine

/-- One step. -/
def step (s : State) : Host.Outcome State Fault Refusal := performNext s

/-- The state whose very next step fetches and runs the table word `w` (log entry 15). -/
def State.withFetchWord (s : State) (nbits w : Nat) : State := placeWord s (BitVec.ofNat 16 (w % 2 ^ nbits))

/-- The state that a step leaves when it fails: the command is taken, and the core is as 60_exceptions.md R173 and R174
say. -/
def stepLeft (s : State) : State := stateLeft (takeCommand s).1 (takeCommand s).2

end Sys2Proof.Machine
end

