-- ==== Sys2Proof/Safety.lean ====
section
/-! DEFINITION. What counts as a safe run, in the terms claims use. A failed command is never a final state
(60_exceptions.md R178): a claim is about runs in which no failure is signalled. -/

namespace Sys2Proof.Safety

open Sys2Proof.Machine

/-- `k` steps from `s` complete with no failure signalled, and end in `t`. -/
def SafeRun (k : Nat) (s t : State) : Prop := Host.Core.run Sys2Proof.core k s = .next t

/-- The next step of `s` completes. -/
def StepsSafely (s : State) : Prop := ∃ t, step s = .next t

/-- The invariant of the core: memory keeps its canonical form; a stack slot holds at most 0x1000 (a pushed address is
`A + 2` of a fetchable `A`, 90_conflicts.md C6); PC is at most 0x10FE (the highest target of `Bnnn`,
40_control_transfer.md R84). -/
structure Inv (s : State) : Prop where
  memWf : Memory.wf s.mem
  stackLow : ∀ k : Fin 16, s.stack[k].toNat ≤ 0x1000
  pcLow : s.pc.toNat ≤ 0x10FE

/-- A condition under which the execute phase of an instruction fails, with the kind (60_exceptions.md R171). The state
is the one the execute phase starts from. -/
def FailsWith (i : Instr) (s : State) (f : Fault) : Prop :=
  match i with
  | .call _ => s.sp = 16 ∧ f = .stackOverflow
  | .ret => s.sp = 0 ∧ f = .stackUnderflow
  | .drw _ _ n => 1 ≤ n.val ∧ s.i.toNat + n.val - 1 > 4095 ∧ f = .memoryOutOfBounds (s.i.toNat + n.val - 1)
  | .bcd _ => s.i.toNat + 2 > 4095 ∧ f = .memoryOutOfBounds (s.i.toNat + 2)
  | .stRegs x => s.i.toNat + x.val > 4095 ∧ f = .memoryOutOfBounds (s.i.toNat + x.val)
  | .ldRegs x => s.i.toNat + x.val > 4095 ∧ f = .memoryOutOfBounds (s.i.toNat + x.val)
  | .skp x => s.v[x].toNat > 15 ∧ f = .invalidKeyIndex s.v[x].toNat
  | .sknp x => s.v[x].toNat > 15 ∧ f = .invalidKeyIndex s.v[x].toNat
  | .cls => False
  | .sys _ => False
  | .jp _ => False
  | .seImm _ _ => False
  | .sneImm _ _ => False
  | .seReg _ _ => False
  | .ldImm _ _ => False
  | .addImm _ _ => False
  | .ldReg _ _ => False
  | .or _ _ => False
  | .and _ _ => False
  | .xor _ _ => False
  | .addReg _ _ => False
  | .sub _ _ => False
  | .shr _ _ => False
  | .subn _ _ => False
  | .shl _ _ => False
  | .sneReg _ _ => False
  | .ldI _ => False
  | .jpV0 _ => False
  | .rnd _ _ => False
  | .ldVxDt _ => False
  | .ldVxK _ => False
  | .ldDtVx _ => False
  | .ldStVx _ => False
  | .addI _ => False
  | .ldF _ => False
  | .unknown _ => False

end Sys2Proof.Safety
end

