-- ==== Sys2Proof/Certificates/Slice0/Obligations.lean ====
section
/-! DEFINITION. The statements for the provers. Where a statement rests on a decision that the spec marks as its own
(D<n> of 92_eei_decisions.md), its docstring says so and names the log entry. The state given to `exec` is the one after
the sequencer's advance, `PC = A + 2` (30_encoding.md R60). -/

namespace Sys2Proof.Claims

open Sys2Proof.Machine

/-- The registers that an instruction's rule lets it write: its destination, and VF for the six instructions that write
it as a side effect (10_state.md R12). -/
def writesV : Instr → Reg → Prop
  | .ldImm x _, k | .addImm x _, k | .ldReg x _, k | .or x _, k | .and x _, k | .xor x _, k | .rnd x _, k
  | .ldVxDt x, k | .ldVxK x, k => k = x
  | .addReg x _, k | .sub x _, k | .shr x _, k | .subn x _, k | .shl x _, k => k = x ∨ k = 15
  | .drw _ _ _, k => k = 15
  | .ldRegs x, k => k ≤ x
  | .cls, _ | .ret, _ | .sys _, _ | .jp _, _ | .call _, _ | .seImm _ _, _ | .sneImm _ _, _ | .seReg _ _, _
  | .sneReg _ _, _ | .ldI _, _ | .jpV0 _, _ | .skp _, _ | .sknp _, _ | .ldDtVx _, _ | .ldStVx _, _ | .addI _, _
  | .ldF _, _ | .bcd _, _ | .stRegs _, _ | .unknown _, _ => False

/-- The six instructions that write VF as a side effect (10_state.md R12). -/
def writesFlag : Instr → Prop
  | .addReg _ _ | .sub _ _ | .shr _ _ | .subn _ _ | .shl _ _ | .drw _ _ _ => True
  | .ldImm _ _ | .addImm _ _ | .ldReg _ _ | .or _ _ | .and _ _ | .xor _ _ | .rnd _ _ | .ldVxDt _ | .ldVxK _
  | .ldRegs _ | .cls | .ret | .sys _ | .jp _ | .call _ | .seImm _ _ | .sneImm _ _ | .seReg _ _ | .sneReg _ _ | .ldI _
  | .jpV0 _ | .skp _ | .sknp _ | .ldDtVx _ | .ldStVx _ | .addI _ | .ldF _ | .bcd _ | .stRegs _ | .unknown _ => False

/-- PC after a completed cycle, by the table of 10_state.md R15; `s` is the state before the cycle, `s.pc` is the address
`A` of the instruction. -/
def pcAfter (i : Instr) (s : State) : Word :=
  match i with
  | .jp nnn | .call nnn => nnn.setWidth 16
  | .ret => s.stack[s.sp.val - 1]?.getD 0
  | .jpV0 nnn => nnn.setWidth 16 + s.v[0].setWidth 16
  | .seImm x kk => if s.v[x] = kk then s.pc + 4 else s.pc + 2
  | .sneImm x kk => if s.v[x] ≠ kk then s.pc + 4 else s.pc + 2
  | .seReg x y => if s.v[x] = s.v[y] then s.pc + 4 else s.pc + 2
  | .sneReg x y => if s.v[x] ≠ s.v[y] then s.pc + 4 else s.pc + 2
  | .skp x => if s.key[s.v[x].toNat]?.getD false = true then s.pc + 4 else s.pc + 2
  | .sknp x => if s.key[s.v[x].toNat]?.getD false = false then s.pc + 4 else s.pc + 2
  | .ldVxK _ => if ∀ k : Fin 16, s.key[k] = false then s.pc else s.pc + 2
  | .cls | .sys _ | .ldImm _ _ | .addImm _ _ | .ldReg _ _ | .or _ _ | .and _ _ | .xor _ _ | .addReg _ _ | .sub _ _
  | .shr _ _ | .subn _ _ | .shl _ _ | .ldI _ | .rnd _ _ | .drw _ _ _ | .ldVxDt _ | .ldDtVx _ | .ldStVx _ | .addI _
  | .ldF _ | .bcd _ | .stRegs _ | .ldRegs _ | .unknown _ => s.pc + 2

/-- The incoming bit of pixel `p` is 1 when a sprite is drawn at (x, y): row `j`, column `c` of the sprite fall on `p`
and the sprite's bit there is 1 (44_display.md R141). -/
def incoming (x y : Byte) (sprite : List Byte) (p : Nat) : Prop :=
  ∃ j c, j < sprite.length ∧ c < 8 ∧ p = (x.toNat + c) % 64 + 64 * ((y.toNat + j) % 32) ∧
    (sprite.getD j 0).getLsbD (7 - c) = true

/-- The byte at address `a` after ST_REGS: `V[a - I]` in the range stored to, else the byte as it was
(43_index_memory.md R134). -/
def afterStRegs (x : Reg) (s : State) (a : Nat) : Byte :=
  if baseAddress s ≤ a ∧ a ≤ baseAddress s + x.val then s.v[a - baseAddress s]?.getD 0 else s.mem.byteAt a

/-- The byte at address `a` after BCD: the hundreds, tens and units of `V[x]` at I, I+1, I+2, else the byte as it was
(43_index_memory.md R133). -/
def afterBcd (x : Reg) (s : State) (a : Nat) : Byte :=
  if a = baseAddress s then BitVec.ofNat 8 (s.v[x].toNat / 100)
  else if a = baseAddress s + 1 then BitVec.ofNat 8 (s.v[x].toNat / 10 % 10)
  else if a = baseAddress s + 2 then BitVec.ofNat 8 (s.v[x].toNat % 10)
  else s.mem.byteAt a

end Sys2Proof.Claims

open Sys2Proof Sys2Proof.Machine Sys2Proof.Safety

/-! ## Encoding -/

/-- Decoding the word of a well-formed instruction gives it back, with every operand at every value (30_encoding.md
R62, R63, R64). -/
def Obligations.DecodeOfEncode : Prop :=
  ∀ i : Instr, i.wf = true → decode (encode i) = i

/-- Every word decodes to a well-formed instruction whose word it is: no bit of a word is dropped, ignored fields
included (30_encoding.md R62, R64, R67, R70). -/
def Obligations.EncodeOfDecode : Prop :=
  ∀ op : Word, (decode op).wf = true ∧ encode (decode op) = op

/-- The decoder, a switch over nibbles, gives every word the kind of the first row of the opcode map that the word
matches (30_encoding.md R64). -/
def Obligations.DecoderAgreesWithOpcodeMap : Prop :=
  ∀ op : Word, firstMatch op = some (decode op).mnemonic

/-- The words that decode to UNKNOWN are exactly those of the class list of 30_encoding.md R66; of class 0 the words
other than 00E0 and 00EE are SYS. -/
def Obligations.UnknownWordsAreTheListedOnes : Prop :=
  ∀ op : Word,
    (decode op = .unknown op ↔ isUnknownWord op = true) ∧ (∀ w, decode op = .unknown w → w = op) ∧
    ((∃ nnn, decode op = .sys nnn) ↔ op.toNat / 4096 = 0 ∧ op ≠ 0x00E0 ∧ op ≠ 0x00EE)

/-- The fields of a word (30_encoding.md R62): the nibbles are its four digits, most significant first; `nnn`, `kk`,
`x`, `y`, `n` are assembled from them. -/
def Obligations.FieldsAreTheDigitsOfTheWord : Prop :=
  ∀ op : Word,
    op.toNat = (fields op).n0.toNat * 4096 + (fields op).n1.toNat * 256 + (fields op).n2.toNat * 16 +
      (fields op).n3.toNat ∧
    (fields op).nnn.toNat = (fields op).n1.toNat * 256 + (fields op).n2.toNat * 16 + (fields op).n3.toNat ∧
    (fields op).kk.toNat = (fields op).n2.toNat * 16 + (fields op).n3.toNat ∧
    (fields op).x.val = (fields op).n1.toNat ∧ (fields op).y.val = (fields op).n2.toNat ∧
    (fields op).n.val = (fields op).n3.toNat

/-- A few words written out from the patterns of 30_encoding.md R64 decode to the instructions they stand for. -/
def Obligations.WordsFromThePatternsDecode : Prop :=
  decode 0x00EE = .ret ∧ decode 0x0FEE = .sys 0xFEE ∧ decode 0x2ABC = .call 0xABC ∧ decode 0x4F00 = .sneImm 15 0x00 ∧
  decode 0x81F6 = .shr 1 15 ∧ decode 0xF21E = .addI 2 ∧ decode 0xF233 = .bcd 2 ∧ decode 0xD125 = .drw 1 2 5 ∧
  decode 0xE3A1 = .sknp 3 ∧ decode 0xF318 = .ldStVx 3 ∧ decode 0xF175 = .unknown 0xF175

/-! ## The step -/

/-- A step with no host command listed, or with `execute_instruction_cycle` next, runs the instruction that the two
bytes at PC decode to, in the state whose PC is advanced by 2 (30_encoding.md R60, R61); with another host command next,
it performs that command (60_exceptions.md R190). The list of commands is the model's (log entry 1). -/
def Obligations.StepRunsTheDecodedInstruction : Prop :=
  (∀ (s : State) (i : Instr), s.pending = [] → s.pc.toNat ≤ 0xFFE →
    decodeBytes [s.mem.byteAt s.pc.toNat, s.mem.byteAt (s.pc.toNat + 1)] = .ok (i, []) →
    step s = exec i { s with pc := s.pc + 2 }) ∧
  (∀ (s : State) (i : Instr) (rest : List Command), s.pending = .cycle :: rest → s.pc.toNat ≤ 0xFFE →
    decodeBytes [s.mem.byteAt s.pc.toNat, s.mem.byteAt (s.pc.toNat + 1)] = .ok (i, []) →
    step s = exec i { s with pc := s.pc + 2, pending := rest }) ∧
  (∀ (s : State) (c : Command) (rest : List Command), s.pending = c :: rest →
    step s = command c { s with pending := rest })

/-- The fetch is big-endian, needs no alignment, and fails exactly when `pc > 0xFFE` (20_memory.md R42, R43,
30_encoding.md R61). That it fails there is decision D2 (log entry 5). -/
def Obligations.FetchIsBigEndianAndBounded : Prop :=
  ∀ (m : Memory) (pc : Word),
    (pc.toNat ≤ 0xFFE → ∃ op, fetch m pc = .ok op ∧
      op.toNat = (m.byteAt pc.toNat).toNat * 256 + (m.byteAt (pc.toNat + 1)).toNat) ∧
    (0xFFE < pc.toNat → fetch m pc = .error (.memoryOutOfBounds (pc.toNat + 1)))

/-- A word placed for the next step is the one that the next step runs, from every state whose memory has its canonical
form (log entry 15). -/
def Obligations.PlacedWordIsTheOneExecuted : Prop :=
  ∀ (s : State) (w : Nat), Memory.wf s.mem →
    step (s.withFetchWord 16 w) =
      exec (decode (BitVec.ofNat 16 w))
        { s.withFetchWord 16 w with pc := (s.withFetchWord 16 w).pc + 2 } ∧
    (s.pc.toNat ≤ 0xFFE → (s.withFetchWord 16 w).pc = s.pc)

/-- PC after a completed cycle is what the table of 10_state.md R15 says, for every instruction. -/
def Obligations.PcAfterEveryInstruction : Prop :=
  ∀ s t : State, s.pending = [] → step s = .next t →
    ∃ op, fetch s.mem s.pc = .ok op ∧ t.pc = Claims.pcAfter (decode op) s

/-- A store is seen by the very next fetch (20_memory.md R53, decision D16, log entry 16): after BCD or ST_REGS, with
every operand, the word fetched at any fetchable address is made of the bytes stored, where they lie, and of the bytes
as they were elsewhere. -/
def Obligations.StoreIsSeenByTheNextFetch : Prop :=
  ∀ (s t : State) (x : Reg) (pc : Word), Memory.wf s.mem → pc.toNat ≤ 0xFFE →
    (exec (.stRegs x) s = .next t → fetch t.mem pc =
      .ok (wordOfBytes (Claims.afterStRegs x s pc.toNat) (Claims.afterStRegs x s (pc.toNat + 1)))) ∧
    (exec (.bcd x) s = .next t → fetch t.mem pc =
      .ok (wordOfBytes (Claims.afterBcd x s pc.toNat) (Claims.afterBcd x s (pc.toNat + 1))))

/-! ## Control transfer and the stack engine -/

/-- SYS and UNKNOWN change nothing: PC stays at `A + 2` (40_control_transfer.md R81, R85). Zeroed memory is a run of
no-ops that advances PC by 2 per step until the fetch leaves memory at PC = 0x1000 and fails (R81; that the fetch fails
is decision D2, log entry 5). -/
def Obligations.SysAndUnknownAreNoOps : Prop :=
  ∀ s : State,
    (∀ nnn : Addr12, nnn ≠ 0x0E0 → nnn ≠ 0x0EE → decode (BitVec.ofNat 16 nnn.toNat) = .sys nnn) ∧
    (∀ nnn : Addr12, exec (.sys nnn) s = .next s) ∧
    (∀ op : Word, isUnknownWord op = true → decode op = .unknown op) ∧
    (∀ op : Word, exec (.unknown op) s = .next s) ∧
    (s.pending = [] → s.pc.toNat ≤ 0xFFE → s.mem.byteAt s.pc.toNat = 0 → s.mem.byteAt (s.pc.toNat + 1) = 0 →
      step s = .next { s with pc := s.pc + 2 }) ∧
    (s.pending = [] → s.pc = 0x1000 → step s = .fault (.memoryOutOfBounds 0x1001))

/-- JP (40_control_transfer.md R82): PC becomes the target, which is at most 0xFFF, and nothing else changes; a jump
to its own address leaves the whole state unchanged. That the fetch at a target of 0xFFF fails with MemoryOutOfBounds is
decision D2 (30_encoding.md R61, log entry 5). -/
def Obligations.JpSetsPc : Prop :=
  (∀ nnn : Addr12, decode (BitVec.ofNat 16 (0x1000 + nnn.toNat)) = .jp nnn) ∧
  (∀ (nnn : Addr12) (s : State), exec (.jp nnn) s = .next { s with pc := nnn.setWidth 16 } ∧
    (nnn.setWidth 16 : Word).toNat ≤ 0xFFF) ∧
  (∀ m : Memory, fetch m 0xFFF = .error (.memoryOutOfBounds 0x1000)) ∧
  (∀ s : State, s.pending = [] → s.pc.toNat ≤ 0xFFE →
    fetch s.mem s.pc = .ok (BitVec.ofNat 16 (0x1000 + s.pc.toNat)) → step s = .next s)

/-- JP_V0 (40_control_transfer.md R84): the target is `nnn + V0`, always V0; the modulus never acts. That the fetch
at a target above 0xFFE fails with MemoryOutOfBounds is decision D2 (30_encoding.md R61, log entry 5). -/
def Obligations.JpV0AddsRegisterZero : Prop :=
  (∀ nnn : Addr12, decode (BitVec.ofNat 16 (0xB000 + nnn.toNat)) = .jpV0 nnn) ∧
  (∀ (nnn : Addr12) (s : State), ∃ t : Word, exec (.jpV0 nnn) s = .next { s with pc := t } ∧
    t.toNat = nnn.toNat + s.v[0].toNat ∧ t.toNat ≤ 0x10FE ∧
    (0xFFE < t.toNat → fetch s.mem t = .error (.memoryOutOfBounds (t.toNat + 1))))

/-- CALL (40_control_transfer.md R83, R86): the advanced PC goes to the slot of the old SP, SP moves up, PC becomes the
target; at SP = 16 it fails. -/
def Obligations.CallPushesTheReturnAddress : Prop :=
  ∀ (nnn : Addr12) (s : State),
    decode (BitVec.ofNat 16 (0x2000 + nnn.toNat)) = .call nnn ∧
    (∀ h : s.sp.val < 16, exec (.call nnn) s =
      .next { s with stack := s.stack.set s.sp.val s.pc, sp := ⟨s.sp.val + 1, by omega⟩, pc := nnn.setWidth 16 }) ∧
    (s.sp = 16 → exec (.call nnn) s = .fault .stackOverflow)

/-- RET (40_control_transfer.md R80, R87): SP moves down, PC becomes the value of the slot of the new SP, the slot keeps
its value (decision D9, log entry 10); at SP = 0 it fails. -/
def Obligations.RetPopsTheReturnAddress : Prop :=
  ∀ s : State,
    (∀ (h : 0 < s.sp.val) (hs : s.sp.val - 1 < 16), exec .ret s =
      .next { s with sp := ⟨s.sp.val - 1, by omega⟩, pc := s.stack[s.sp.val - 1] }) ∧
    (s.sp = 0 → exec .ret s = .fault .stackUnderflow)

/-- A return right after a call brings PC and SP back to what they were (40_control_transfer.md R80, R83); the slot
keeps the address. -/
def Obligations.RetUndoesCall : Prop :=
  ∀ (nnn : Addr12) (s t : State) (q : Word), exec (.call nnn) s = .next t →
    ∃ u, exec .ret { t with pc := q } = .next u ∧ u.pc = s.pc ∧ u.sp = s.sp ∧
      ∀ k : Fin 16, k.val ≠ s.sp.val → u.stack[k] = s.stack[k]

/-- `push` (40_control_transfer.md R86). -/
def Obligations.PushWritesTheSlotOfTheOldSp : Prop :=
  ∀ (s : State) (a : Word),
    (s.sp = 16 → push s a = .error .stackOverflow) ∧
    (s.sp.val < 16 → ∃ t, push s a = .ok t ∧ t.sp.val = s.sp.val + 1 ∧
      (∀ k : Fin 16, t.stack[k] = if k.val = s.sp.val then a else s.stack[k]) ∧
      s = { t with sp := s.sp, stack := s.stack })

/-- `pop` (40_control_transfer.md R87). -/
def Obligations.PopReadsTheSlotOfTheNewSp : Prop :=
  ∀ s : State,
    (s.sp = 0 → pop s = .error .stackUnderflow) ∧
    (∀ k : Fin 16, s.sp.val = k.val + 1 →
      ∃ t, pop s = .ok (s.stack[k], t) ∧ t.sp.val = k.val ∧ s = { t with sp := s.sp })

/-! ## Skips -/

/-- SE_IMM and SNE_IMM (41_skips.md R101, R102): PC moves two further when the condition holds, else nothing is
written. -/
def Obligations.ImmediateSkips : Prop :=
  ∀ (x : Reg) (kk : Byte) (s : State),
    decode (BitVec.ofNat 16 (0x3000 + 0x100 * x.val + kk.toNat)) = .seImm x kk ∧
    decode (BitVec.ofNat 16 (0x4000 + 0x100 * x.val + kk.toNat)) = .sneImm x kk ∧
    exec (.seImm x kk) s = .next (if s.v[x] = kk then { s with pc := s.pc + 2 } else s) ∧
    exec (.sneImm x kk) s = .next (if s.v[x] ≠ kk then { s with pc := s.pc + 2 } else s)

/-- SE_REG and SNE_REG (41_skips.md R103, R104): as the immediate skips, on two registers; with a last digit other than
0 the words of classes 5 and 9 are UNKNOWN. -/
def Obligations.RegisterSkips : Prop :=
  ∀ (x y : Reg) (s : State),
    decode (BitVec.ofNat 16 (0x5000 + 0x100 * x.val + 0x10 * y.val)) = .seReg x y ∧
    decode (BitVec.ofNat 16 (0x9000 + 0x100 * x.val + 0x10 * y.val)) = .sneReg x y ∧
    exec (.seReg x y) s = .next (if s.v[x] = s.v[y] then { s with pc := s.pc + 2 } else s) ∧
    exec (.sneReg x y) s = .next (if s.v[x] ≠ s.v[y] then { s with pc := s.pc + 2 } else s) ∧
    ∀ n : Fin 16, n ≠ 0 → ∀ op : Word,
      op = BitVec.ofNat 16 (0x5000 + 0x100 * x.val + 0x10 * y.val + n.val) ∨
      op = BitVec.ofNat 16 (0x9000 + 0x100 * x.val + 0x10 * y.val + n.val) → decode op = .unknown op

/-! ## Loads and ALU -/

/-- LD_IMM, LD_REG, OR, AND, XOR (42_load_alu.md R110, R112 to R115): the destination receives the result, VF included
as a destination, and nothing else changes. -/
def Obligations.LoadsAndLogic : Prop :=
  ∀ (x y : Reg) (kk : Byte) (s : State),
    decode (BitVec.ofNat 16 (0x6000 + 0x100 * x.val + kk.toNat)) = .ldImm x kk ∧
    exec (.ldImm x kk) s = .next { s with v := s.v.set x kk } ∧
    decode (BitVec.ofNat 16 (0x8000 + 0x100 * x.val + 0x10 * y.val)) = .ldReg x y ∧
    exec (.ldReg x y) s = .next { s with v := s.v.set x s.v[y] } ∧
    decode (BitVec.ofNat 16 (0x8001 + 0x100 * x.val + 0x10 * y.val)) = .or x y ∧
    exec (.or x y) s = .next { s with v := s.v.set x (s.v[x] ||| s.v[y]) } ∧
    decode (BitVec.ofNat 16 (0x8002 + 0x100 * x.val + 0x10 * y.val)) = .and x y ∧
    exec (.and x y) s = .next { s with v := s.v.set x (s.v[x] &&& s.v[y]) } ∧
    decode (BitVec.ofNat 16 (0x8003 + 0x100 * x.val + 0x10 * y.val)) = .xor x y ∧
    exec (.xor x y) s = .next { s with v := s.v.set x (s.v[x] ^^^ s.v[y]) }

/-- ADD_IMM (42_load_alu.md R111): the sum modulo 256, no carry recorded. -/
def Obligations.AddImmediateWraps : Prop :=
  ∀ (x : Reg) (kk : Byte) (s : State),
    decode (BitVec.ofNat 16 (0x7000 + 0x100 * x.val + kk.toNat)) = .addImm x kk ∧
    ∃ r : Byte, exec (.addImm x kk) s = .next { s with v := s.v.set x r } ∧ r.toNat = (s.v[x].toNat + kk.toNat) % 256

/-- ADD_REG, SUB, SUBN (42_load_alu.md R116, R117, R119): the result modulo 256, then the flag in VF. For `x = 15` the
flag survives: decision D6 of the spec, the default of `VF_PRIORITY` (R123, log entry 4). -/
def Obligations.AdditionAndSubtraction : Prop :=
  ∀ (x y : Reg) (s : State),
    decode (BitVec.ofNat 16 (0x8004 + 0x100 * x.val + 0x10 * y.val)) = .addReg x y ∧
    exec (.addReg x y) s = .next
      { s with v := (s.v.set x (s.v[x] + s.v[y])).set 15 (if 256 ≤ s.v[x].toNat + s.v[y].toNat then 1 else 0) } ∧
    decode (BitVec.ofNat 16 (0x8005 + 0x100 * x.val + 0x10 * y.val)) = .sub x y ∧
    exec (.sub x y) s = .next
      { s with v := (s.v.set x (s.v[x] - s.v[y])).set 15 (if s.v[y].toNat ≤ s.v[x].toNat then 1 else 0) } ∧
    decode (BitVec.ofNat 16 (0x8007 + 0x100 * x.val + 0x10 * y.val)) = .subn x y ∧
    exec (.subn x y) s = .next
      { s with v := (s.v.set x (s.v[y] - s.v[x])).set 15 (if s.v[x].toNat ≤ s.v[y].toNat then 1 else 0) }

/-- SHR and SHL (42_load_alu.md R118, R120): `V[x]` shifted by one, the bit shifted out in VF; `V[y]` is neither read
nor written. For `x = 15` the flag survives: decision D6 of the spec (R123, log entry 4). -/
def Obligations.ShiftsByOne : Prop :=
  ∀ (x y : Reg) (s : State),
    decode (BitVec.ofNat 16 (0x8006 + 0x100 * x.val + 0x10 * y.val)) = .shr x y ∧
    exec (.shr x y) s = .next
      { s with v := (s.v.set x (s.v[x] >>> 1)).set 15 (if s.v[x].getLsbD 0 = true then 1 else 0) } ∧
    decode (BitVec.ofNat 16 (0x800E + 0x100 * x.val + 0x10 * y.val)) = .shl x y ∧
    exec (.shl x y) s = .next
      { s with v := (s.v.set x (s.v[x] <<< 1)).set 15 (if s.v[x].getLsbD 7 = true then 1 else 0) }

/-- The ALU's table (42_load_alu.md R122), every function, and what an instruction writes of it: `V[x] <- r` and, when
the write enable is 1, VF 0x00 or 0x01 (here for `x` other than 15, or with the write enable 0: R123 is another
statement's). -/
def Obligations.AluTable : Prop :=
  (∀ (fn : AluFn) (x : Reg) (b : Byte) (s : State),
    ((alu fn s.v[x] b).flagWe = false → aluStep fn x b s = { s with v := s.v.set x (alu fn s.v[x] b).r }) ∧
    ((alu fn s.v[x] b).flagWe = true → x ≠ 15 → aluStep fn x b s =
      { s with v := (s.v.set x (alu fn s.v[x] b).r).set 15 (if (alu fn s.v[x] b).flag = true then 1 else 0) })) ∧
  ∀ a b : Byte,
    alu .mov a b = ⟨b, false, false⟩ ∧ alu .or a b = ⟨a ||| b, false, false⟩ ∧
    alu .and a b = ⟨a &&& b, false, false⟩ ∧ alu .xor a b = ⟨a ^^^ b, false, false⟩ ∧
    alu .addi a b = ⟨a + b, false, false⟩ ∧
    alu .add a b = ⟨a + b, decide (256 ≤ a.toNat + b.toNat), true⟩ ∧
    alu .sub a b = ⟨a - b, decide (b.toNat ≤ a.toNat), true⟩ ∧
    alu .shr a b = ⟨a >>> 1, a.getLsbD 0, true⟩ ∧
    alu .subn a b = ⟨b - a, decide (a.toNat ≤ b.toNat), true⟩ ∧
    alu .shl a b = ⟨a <<< 1, a.getLsbD 7, true⟩

/-- RND (42_load_alu.md R121, decision D8): the byte drawn for this step, a free value (log entry 2), masked with `kk`;
bits outside `kk` are 0 for every draw; the next draw is another one. -/
def Obligations.RndMasksTheDraw : Prop :=
  ∀ (x : Reg) (kk : Byte) (s : State),
    decode (BitVec.ofNat 16 (0xC000 + 0x100 * x.val + kk.toNat)) = .rnd x kk ∧
    exec (.rnd x kk) s = .next { s with v := s.v.set x (drawnByte s &&& kk), draws := s.draws + 1 } ∧
    ∀ k, kk.getLsbD k = false → (drawnByte s &&& kk).getLsbD k = false

/-! ## Index register and memory -/

/-- LD_I, ADD_I, LD_F (43_index_memory.md R130, R131, R132): only I changes; ADD_I is modulo 65536 without a flag; LD_F
multiplies the full 8-bit value. -/
def Obligations.IndexRegisterInstructions : Prop :=
  (∀ (nnn : Addr12) (s : State), decode (BitVec.ofNat 16 (0xA000 + nnn.toNat)) = .ldI nnn ∧
    exec (.ldI nnn) s = .next { s with i := nnn.setWidth 16 }) ∧
  (∀ (x : Reg) (s : State), decode (BitVec.ofNat 16 (0xF01E + 0x100 * x.val)) = .addI x ∧
    exec (.addI x) s = .next { s with i := s.i + s.v[x].setWidth 16 }) ∧
  (∀ (x : Reg) (s : State), decode (BitVec.ofNat 16 (0xF029 + 0x100 * x.val)) = .ldF x ∧
    ∃ w : Word, exec (.ldF x) s = .next { s with i := w } ∧ w.toNat = s.v[x].toNat * 5)

/-- BCD (43_index_memory.md R133): the three digits at I, I+1, I+2, every other byte of memory as before, and nothing
else changed; past 4095 it fails (decision D2, log entry 5). -/
def Obligations.BcdStoresThreeDigits : Prop :=
  ∀ (x : Reg) (s : State), Memory.wf s.mem →
    decode (BitVec.ofNat 16 (0xF033 + 0x100 * x.val)) = .bcd x ∧
    (baseAddress s + 2 ≤ 4095 → ∃ m, exec (.bcd x) s = .next { s with mem := m } ∧
      (m.byteAt (baseAddress s)).toNat = s.v[x].toNat / 100 ∧
      (m.byteAt (baseAddress s + 1)).toNat = s.v[x].toNat / 10 % 10 ∧
      (m.byteAt (baseAddress s + 2)).toNat = s.v[x].toNat % 10 ∧
      ∀ a, a < baseAddress s ∨ baseAddress s + 3 ≤ a → m.byteAt a = s.mem.byteAt a) ∧
    (4095 < baseAddress s + 2 → exec (.bcd x) s = .fault (.memoryOutOfBounds (baseAddress s + 2)))

/-- ST_REGS (43_index_memory.md R134, R136): V0..Vx at I..I+x, every other byte of memory as before, and nothing else
changed, I included; past 4095 it fails (decision D2, log entry 5). -/
def Obligations.StRegsStoresTheRange : Prop :=
  ∀ (x : Reg) (s : State), Memory.wf s.mem →
    decode (BitVec.ofNat 16 (0xF055 + 0x100 * x.val)) = .stRegs x ∧
    (baseAddress s + x.val ≤ 4095 → ∃ m, exec (.stRegs x) s = .next { s with mem := m } ∧
      (∀ k : Fin 16, k ≤ x → m.byteAt (baseAddress s + k.val) = s.v[k]) ∧
      ∀ a, a < baseAddress s ∨ baseAddress s + x.val < a → m.byteAt a = s.mem.byteAt a) ∧
    (4095 < baseAddress s + x.val → exec (.stRegs x) s = .fault (.memoryOutOfBounds (baseAddress s + x.val)))

/-- LD_REGS (43_index_memory.md R135, R136): V0..Vx from I..I+x, the registers above x as before, and nothing else
changed, memory and I included; past 4095 it fails (decision D2, log entry 5). -/
def Obligations.LdRegsLoadsTheRange : Prop :=
  ∀ (x : Reg) (s : State),
    decode (BitVec.ofNat 16 (0xF065 + 0x100 * x.val)) = .ldRegs x ∧
    (baseAddress s + x.val ≤ 4095 → ∃ w, exec (.ldRegs x) s = .next { s with v := w } ∧
      ∀ k : Fin 16, w[k] = if k ≤ x then s.mem.byteAt (baseAddress s + k.val) else s.v[k]) ∧
    (4095 < baseAddress s + x.val → exec (.ldRegs x) s = .fault (.memoryOutOfBounds (baseAddress s + x.val)))

/-- Registers stored by ST_REGS come back with LD_REGS, whatever was in the registers meanwhile (43_index_memory.md R134,
R135). -/
def Obligations.LdRegsAfterStRegsRestores : Prop :=
  ∀ (x : Reg) (s t : State) (w : Vector Byte 16), Memory.wf s.mem → exec (.stRegs x) s = .next t →
    ∃ u, exec (.ldRegs x) { t with v := w } = .next u ∧
      ∀ k : Fin 16, u.v[k] = if k ≤ x then s.v[k] else w[k]

/-! ## Display -/

/-- CLS (44_display.md R140, R142): all 2048 pixels are 0 and nothing else changes. -/
def Obligations.ClsClearsEveryPixel : Prop :=
  decode 0x00E0 = .cls ∧
  ∀ s : State, ∃ d : Display, exec .cls s = .next { s with px := d } ∧ ∀ p, p < 2048 → d.pixel p = false

/-- `draw` pixel by pixel (44_display.md R141): every pixel becomes its old value XOR its incoming bit, and there is a
collision when some pixel was set and its incoming bit is 1. -/
def Obligations.DrawIsXorWithCollision : Prop :=
  ∀ (d : Display) (x y : Byte) (sprite : List Byte), sprite.length ≤ 15 →
    (∀ p, p < 2048 → ((draw d x y sprite).1.pixel p = true ↔
      (d.pixel p = true ∧ ¬ Claims.incoming x y sprite p) ∨ (d.pixel p = false ∧ Claims.incoming x y sprite p))) ∧
    ((draw d x y sprite).2 = true ↔ ∃ p, p < 2048 ∧ d.pixel p = true ∧ Claims.incoming x y sprite p)

/-- No pixel is touched twice by one `draw`, and every touched pixel lies on the screen (44_display.md R144). -/
def Obligations.DrawTouchesNoPixelTwice : Prop :=
  ∀ (x y : Byte) (sprite : List Byte), sprite.length ≤ 15 →
    ((touched x y sprite).map Prod.fst).Nodup ∧ (touched x y sprite).length = 8 * sprite.length ∧
    ∀ t ∈ touched x y sprite, t.1 < 2048

/-- The three properties of `draw` in 44_display.md R145: drawing twice restores the display, and the second call
collides exactly where the first turned a pixel on; wraparound is by axis; glyph 0 on a blank display. -/
def Obligations.DrawPropertiesOfTheSource : Prop :=
  (∀ (d : Display) (x y : Byte) (sprite : List Byte), sprite.length ≤ 15 →
    (draw (draw d x y sprite).1 x y sprite).1 = d ∧
    ((draw (draw d x y sprite).1 x y sprite).2 = true ↔
      ∃ p, p < 2048 ∧ d.pixel p = false ∧ Claims.incoming x y sprite p)) ∧
  (∀ sprite : List Byte, sprite.length = 5 → ∀ col row, col < 64 → row < 32 →
    (col + 64 * row ∈ (touched 62 30 sprite).map Prod.fst ↔
      col ∈ [62, 63, 0, 1, 2, 3, 4, 5] ∧ row ∈ [30, 31, 0, 1, 2])) ∧
  ((draw clearDisplay 0 0 glyphZero).2 = false ∧
    ∀ p, p < 2048 → ((draw clearDisplay 0 0 glyphZero).1.pixel p = true ↔
      p ∈ [0, 1, 2, 3, 64, 67, 128, 131, 192, 195, 256, 257, 258, 259]))

/-- DRW (44_display.md R143): the `n` bytes at I are drawn at the old V[x], V[y]; VF is the collision, always written;
nothing else changes, memory and I included. Past 4095 it fails (decision D2, log entry 5); an empty sprite never fails
(decision D14, log entry 8). -/
def Obligations.DrwDrawsTheSpriteAtI : Prop :=
  ∀ (x y : Reg) (n : Fin 16) (s : State),
    decode (BitVec.ofNat 16 (0xD000 + 0x100 * x.val + 0x10 * y.val + n.val)) = .drw x y n ∧
    (n.val = 0 ∨ baseAddress s + n.val - 1 ≤ 4095 →
      ∃ (d : Display) (c : Bool),
        exec (.drw x y n) s = .next { s with px := d, v := s.v.set 15 (if c then 1 else 0) } ∧
        (∀ p, p < 2048 → (d.pixel p = true ↔
          (s.px.pixel p = true ∧ ¬ Claims.incoming s.v[x] s.v[y] (s.mem.bytesAt (baseAddress s) n.val) p) ∨
          (s.px.pixel p = false ∧ Claims.incoming s.v[x] s.v[y] (s.mem.bytesAt (baseAddress s) n.val) p))) ∧
        (c = true ↔ ∃ p, p < 2048 ∧ s.px.pixel p = true ∧
          Claims.incoming s.v[x] s.v[y] (s.mem.bytesAt (baseAddress s) n.val) p)) ∧
    (1 ≤ n.val → 4095 < baseAddress s + n.val - 1 →
      exec (.drw x y n) s = .fault (.memoryOutOfBounds (baseAddress s + n.val - 1)))

/-! ## Keypad and timers -/

/-- SKP and SKNP (45_keypad_timers.md R150, R151): the key tested is the value of V[x]; a value above 15 fails (R156,
decision D5, log entry 7). -/
def Obligations.KeySkips : Prop :=
  ∀ (x : Reg) (s : State),
    decode (BitVec.ofNat 16 (0xE09E + 0x100 * x.val)) = .skp x ∧
    decode (BitVec.ofNat 16 (0xE0A1 + 0x100 * x.val)) = .sknp x ∧
    (∀ k : Fin 16, s.v[x].toNat = k.val →
      exec (.skp x) s = .next (if s.key[k] = true then { s with pc := s.pc + 2 } else s) ∧
      exec (.sknp x) s = .next (if s.key[k] = false then { s with pc := s.pc + 2 } else s)) ∧
    (15 < s.v[x].toNat → exec (.skp x) s = .fault (.invalidKeyIndex s.v[x].toNat) ∧
      exec (.sknp x) s = .fault (.invalidKeyIndex s.v[x].toNat))

/-- LD_VX_K (45_keypad_timers.md R152): while no key is down PC goes back by 2, so that the step leaves the whole state
as it was; else V[x] is the highest key that is down. It always completes. -/
def Obligations.LdVxKPolls : Prop :=
  ∀ (x : Reg) (s : State),
    decode (BitVec.ofNat 16 (0xF00A + 0x100 * x.val)) = .ldVxK x ∧
    (∃ t, exec (.ldVxK x) s = .next t) ∧
    ((∀ k : Fin 16, s.key[k] = false) → exec (.ldVxK x) s = .next { s with pc := s.pc - 2 }) ∧
    (∀ k : Fin 16, s.key[k] = true → (∀ j : Fin 16, k < j → s.key[j] = false) →
      exec (.ldVxK x) s = .next { s with v := s.v.set x (BitVec.ofNat 8 k.val) }) ∧
    ((∀ k : Fin 16, s.key[k] = false) → s.pending = [] →
      fetch s.mem s.pc = .ok (BitVec.ofNat 16 (0xF00A + 0x100 * x.val)) → step s = .next s)

/-- LD_VX_DT, LD_DT_VX, LD_ST_VX (45_keypad_timers.md R153, R154, R155): the delay timer set then counts down by one per
tick, and the sound is on at once when the sound timer set is not 0. -/
def Obligations.TimerInstructions : Prop :=
  ∀ (x : Reg) (s : State),
    decode (BitVec.ofNat 16 (0xF007 + 0x100 * x.val)) = .ldVxDt x ∧
    exec (.ldVxDt x) s = .next { s with v := s.v.set x s.dt } ∧
    decode (BitVec.ofNat 16 (0xF015 + 0x100 * x.val)) = .ldDtVx x ∧
    exec (.ldDtVx x) s = .next { s with dt := s.v[x] } ∧
    (decrementTimers { s with dt := s.v[x] }).dt.toNat = s.v[x].toNat - 1 ∧
    decode (BitVec.ofNat 16 (0xF018 + 0x100 * x.val)) = .ldStVx x ∧
    exec (.ldStVx x) s = .next { s with st := s.v[x] } ∧
    (isSoundPlaying { s with st := s.v[x] } = true ↔ 0 < s.v[x].toNat)

/-! ## Host commands and observers -/

/-- `decrement_timers` (60_exceptions.md R184): each timer minus 1, saturating at 0, and nothing else. -/
def Obligations.TickSaturates : Prop :=
  ∀ s : State, ∃ d e : Byte, command .decrementTimers s = .next { s with dt := d, st := e } ∧
    d.toNat = s.dt.toNat - 1 ∧ e.toNat = s.st.toNat - 1

/-- `key_down` and `key_up` (60_exceptions.md R186, R187): one latch, or a failure that changes nothing. -/
def Obligations.KeyCommandsWriteOneLatch : Prop :=
  ∀ (k : Nat) (s : State),
    (∀ h : k < 16, command (.keyDown k) s = .next { s with key := s.key.set k true } ∧
      command (.keyUp k) s = .next { s with key := s.key.set k false }) ∧
    (15 < k → command (.keyDown k) s = .fault (.invalidKeyIndex k) ∧ stateLeft (.keyDown k) s = s ∧
      command (.keyUp k) s = .fault (.invalidKeyIndex k) ∧ stateLeft (.keyUp k) s = s)

/-- `load_rom` (60_exceptions.md R182): the bytes go to 0x200 and on, every other byte as before, nothing else changes;
more than 0xE00 bytes fail and change nothing (decision D18, log entry 12). -/
def Obligations.LoadRomCopiesTo0x200 : Prop :=
  ∀ (bytes : List Byte) (s : State), Memory.wf s.mem →
    (bytes.length ≤ 0xE00 → ∃ m, command (.loadRom bytes) s = .next { s with mem := m } ∧ Memory.wf m ∧
      (∀ k, k < bytes.length → m.byteAt (0x200 + k) = bytes.getD k 0) ∧
      ∀ a, a < 0x200 ∨ 0x200 + bytes.length ≤ a → m.byteAt a = s.mem.byteAt a) ∧
    (0xE00 < bytes.length → command (.loadRom bytes) s = .fault (.romTooLarge bytes.length) ∧
      stateLeft (.loadRom bytes) s = s)

/-- `reset` (70_reset_and_hazards.md R200, 10_state.md R30): from every state the ten items have their reset values.
The font is said relative to the parameter FONT, which is `fontTable` (log entry 3), with glyph 0 spelled out; that the
host's remaining commands and the count of draws stay is the model's choice (log entry 22). -/
def Obligations.ResetGivesTheTableOfR30 : Prop :=
  ∀ s : State, ∃ t, command .reset s = .next t ∧
    [t.mem.byteAt 0, t.mem.byteAt 1, t.mem.byteAt 2, t.mem.byteAt 3, t.mem.byteAt 4] = [0xF0, 0x90, 0x90, 0x90, 0xF0] ∧
    fontTable.length = 80 ∧ (∀ a, a < 80 → t.mem.byteAt a = fontTable.getD a 0) ∧
    (∀ a, 0x50 ≤ a → t.mem.byteAt a = 0) ∧ (∀ k : Fin 16, t.v[k] = 0) ∧ t.i = 0 ∧ t.pc = 0x200 ∧
    (∀ k : Fin 16, t.stack[k] = 0) ∧ t.sp = 0 ∧ t.dt = 0 ∧ t.st = 0 ∧ (∀ p, p < 2048 → t.px.pixel p = false) ∧
    (∀ k : Fin 16, t.key[k] = false) ∧ t.pending = s.pending ∧ t.draws = s.draws

/-- The observers (60_exceptions.md R185, R188, R189): the sound flag is `ST > 0`, the display buffer is row-major, and
the pending instruction is the decode of the word at PC. -/
def Obligations.ObserversShowTheState : Prop :=
  ∀ s : State,
    (isSoundPlaying s = true ↔ 0 < s.st.toNat) ∧
    (displayBuffer s).length = 2048 ∧
    (∀ x y, x < 64 → y < 32 → (displayBuffer s).getD (x + y * 64) false = (s.px[y]?.getD 0).getLsbD x) ∧
    ((debugInfo s).v = s.v ∧ (debugInfo s).i = s.i ∧ (debugInfo s).pc = s.pc ∧ (debugInfo s).sp = s.sp ∧
      (debugInfo s).stack = s.stack ∧ (debugInfo s).dt = s.dt ∧ (debugInfo s).st = s.st) ∧
    (∀ op, fetch s.mem s.pc = .ok op → (debugInfo s).pendingInstr = some (decode op))

/-! ## Failures -/

/-- The failure conditions of 60_exceptions.md R171, complete: an instruction fails exactly under the condition and with
the kind listed for it (those of memory and of a register's key index are decisions D2 and D5, log entries 5 and 7). -/
def Obligations.FailuresAreTheListedOnes : Prop :=
  ∀ (i : Instr) (s : State) (f : Fault), exec i s = .fault f ↔ FailsWith i s f

/-- Every instruction whose failure condition does not hold completes, and no step is ever refused (60_exceptions.md
R171: "always complete once fetched"). -/
def Obligations.EveryOtherInstructionCompletes : Prop :=
  (∀ (i : Instr) (s : State), (∀ f, ¬ FailsWith i s f) → ∃ t, exec i s = .next t) ∧
  (∀ (s : State) (r : Refusal), step s ≠ .refused r)

/-- The state that a failing step leaves (60_exceptions.md R173, R174; decisions D3, D4, log entry 6): all unchanged
where the fetch fails; where the instruction fails, PC is `A + 2` and all else is unchanged. -/
def Obligations.FailedStepLeavesTheStateAlone : Prop :=
  ∀ (s : State) (f : Fault), s.pending = [] → step s = .fault f →
    (0xFFE < s.pc.toNat → stepLeft s = s ∧ f = .memoryOutOfBounds (s.pc.toNat + 1)) ∧
    (s.pc.toNat ≤ 0xFFE → stepLeft s = { s with pc := s.pc + 2 })

/-! ## Rules of the whole machine -/

/-- No instruction changes a register other than its destination and, for the six flag-writing instructions, VF
(10_state.md R12); no other register is ever written. -/
def Obligations.RegistersChangeOnlyAtDestinations : Prop :=
  ∀ (i : Instr) (s t : State), exec i s = .next t → ∀ k : Reg, ¬ Claims.writesV i k → t.v[k] = s.v[k]

/-- After an instruction that writes VF as a side effect, VF is 0x00 or 0x01 (10_state.md R12). For destination 15 this
rests on decision D6 (42_load_alu.md R123, log entry 4). -/
def Obligations.FlagIsZeroOrOne : Prop :=
  ∀ (i : Instr) (s t : State), Claims.writesFlag i → exec i s = .next t → t.v[15] = 0 ∨ t.v[15] = 1

/-- The step never changes a timer except through Fx15 and Fx18, and no instruction writes a key latch (10_state.md R18,
R20); nor the host's remaining commands, and only RND counts a draw (the model's own fields). -/
def Obligations.TimersAndKeysAreSafeFromOtherInstructions : Prop :=
  ∀ (i : Instr) (s t : State), exec i s = .next t →
    ((∀ x, i ≠ .ldDtVx x) → t.dt = s.dt) ∧ ((∀ x, i ≠ .ldStVx x) → t.st = s.st) ∧ t.key = s.key ∧
    t.pending = s.pending ∧ ((∀ x kk, i ≠ .rnd x kk) → t.draws = s.draws)

/-- Only CLS and DRW change the display, and only BCD and ST_REGS change memory (10_state.md R19, 20_memory.md R54). -/
def Obligations.DisplayAndMemoryWriters : Prop :=
  ∀ (i : Instr) (s t : State), exec i s = .next t →
    (i ≠ .cls → (∀ x y n, i ≠ .drw x y n) → t.px = s.px) ∧
    ((∀ x, i ≠ .bcd x) → (∀ x, i ≠ .stRegs x) → t.mem = s.mem)

/-- Only LD_I, ADD_I and LD_F change I (10_state.md R14, 43_index_memory.md R136), and only CALL and RET change the stack
and SP (10_state.md R16, 40_control_transfer.md R88); RET writes no slot
(decision D9, log entry 10). -/
def Obligations.IndexAndStackWriters : Prop :=
  ∀ (i : Instr) (s t : State), exec i s = .next t →
    ((∀ nnn, i ≠ .ldI nnn) → (∀ x, i ≠ .addI x) → (∀ x, i ≠ .ldF x) → t.i = s.i) ∧
    ((∀ nnn, i ≠ .call nnn) → t.stack = s.stack ∧ (i ≠ .ret → t.sp = s.sp))

/-! ## Invariant -/

/-- Every step keeps the invariant: memory stays canonical, no stack slot passes 0x1000, PC never passes 0x10FE. -/
def Obligations.StepKeepsTheInvariant : Prop :=
  ∀ s t : State, Inv s → step s = .next t → Inv t

/-- The reset state has the invariant. -/
def Obligations.ResetHasTheInvariant : Prop := Inv State.reset

/-! ## What no instruction reads -/

/-- No instruction reads the sound timer (10_state.md R18, 45_keypad_timers.md R155): with another value in ST an
instruction ends the same way, and leaves the same state but for ST itself. -/
def Obligations.NoInstructionReadsTheSoundTimer : Prop :=
  ∀ (i : Instr) (s : State) (b : Byte),
    (∀ t, exec i s = .next t → ∃ c, exec i { s with st := b } = .next { t with st := c } ∧
      ((∀ x, i ≠ .ldStVx x) → c = b) ∧ ((∃ x, i = .ldStVx x) → c = t.st)) ∧
    (∀ f, exec i s = .fault f → exec i { s with st := b } = .fault f)
end

