-- ==== Sys2Proof/Laws/Decode.lean ====
section
/-! SUPPORT. The fields of a word as quotients and remainders, and of a word built by the encoder. -/

namespace Sys2Proof

/-- The field widths of 30_encoding.md R62, as arithmetic. -/
theorem toNat_fieldN0 (op : Word) : (fieldN0 op).toNat = op.toNat / 4096 := by
  have := op.isLt
  simp only [fieldN0, BitVec.extractLsb'_toNat, Nat.shiftRight_eq_div_pow]
  omega

theorem toNat_fieldN1 (op : Word) : (fieldN1 op).toNat = op.toNat / 256 % 16 := by
  simp only [fieldN1, BitVec.extractLsb'_toNat, Nat.shiftRight_eq_div_pow]

theorem toNat_fieldN2 (op : Word) : (fieldN2 op).toNat = op.toNat / 16 % 16 := by
  simp only [fieldN2, BitVec.extractLsb'_toNat, Nat.shiftRight_eq_div_pow]

theorem toNat_fieldN3 (op : Word) : (fieldN3 op).toNat = op.toNat % 16 := by
  simp only [fieldN3, BitVec.extractLsb'_toNat, Nat.shiftRight_eq_div_pow]
  omega

theorem toNat_fieldNnn (op : Word) : (fieldNnn op).toNat = op.toNat % 4096 := by
  simp only [fieldNnn, BitVec.extractLsb'_toNat, Nat.shiftRight_eq_div_pow]
  omega

theorem toNat_fieldKk (op : Word) : (fieldKk op).toNat = op.toNat % 256 := by
  simp only [fieldKk, BitVec.extractLsb'_toNat, Nat.shiftRight_eq_div_pow]
  omega

theorem val_fieldX (op : Word) : (fieldX op).val = op.toNat / 256 % 16 := toNat_fieldN1 op

theorem val_fieldY (op : Word) : (fieldY op).val = op.toNat / 16 % 16 := toNat_fieldN2 op

theorem val_fieldN (op : Word) : (fieldN op).val = op.toNat % 16 := toNat_fieldN3 op

theorem toNat_wordNnn {c : Nat} (hc : c < 16) (nnn : Addr12) : (wordNnn c nnn).toNat = c * 4096 + nnn.toNat := by
  have := nnn.isLt
  simp only [wordNnn, BitVec.toNat_ofNat]
  omega

theorem toNat_wordXkk {c kk : Nat} (hc : c < 16) (x : Reg) (hk : kk < 256) :
    (wordXkk c x kk).toNat = c * 4096 + x.val * 256 + kk := by
  have := x.isLt
  simp only [wordXkk, BitVec.toNat_ofNat]
  omega

theorem toNat_wordXyn {c n : Nat} (hc : c < 16) (x y : Reg) (hn : n < 16) :
    (wordXyn c x y n).toNat = c * 4096 + x.val * 256 + y.val * 16 + n := by
  have := x.isLt
  have := y.isLt
  simp only [wordXyn, BitVec.toNat_ofNat]
  omega

/-! ## The fields of a built word -/

theorem fieldNnn_wordNnn {c : Nat} (hc : c < 16) (nnn : Addr12) : fieldNnn (wordNnn c nnn) = nnn := by
  have := nnn.isLt
  apply BitVec.eq_of_toNat_eq
  rw [toNat_fieldNnn, toNat_wordNnn hc]
  omega

theorem toNat_fieldN0_wordNnn {c : Nat} (hc : c < 16) (nnn : Addr12) : (fieldN0 (wordNnn c nnn)).toNat = c := by
  have := nnn.isLt
  rw [toNat_fieldN0, toNat_wordNnn hc]
  omega

theorem fieldX_wordXkk {c kk : Nat} (hc : c < 16) (x : Reg) (hk : kk < 256) : fieldX (wordXkk c x kk) = x := by
  have := x.isLt
  apply Fin.ext
  rw [val_fieldX, toNat_wordXkk hc x hk]
  omega

theorem toNat_fieldKk_wordXkk {c kk : Nat} (hc : c < 16) (x : Reg) (hk : kk < 256) :
    (fieldKk (wordXkk c x kk)).toNat = kk := by
  have := x.isLt
  rw [toNat_fieldKk, toNat_wordXkk hc x hk]
  omega

theorem fieldKk_wordXkk {c : Nat} (hc : c < 16) (x : Reg) (kk : Byte) : fieldKk (wordXkk c x kk.toNat) = kk :=
  BitVec.eq_of_toNat_eq (toNat_fieldKk_wordXkk hc x kk.isLt)

theorem toNat_fieldN0_wordXkk {c kk : Nat} (hc : c < 16) (x : Reg) (hk : kk < 256) :
    (fieldN0 (wordXkk c x kk)).toNat = c := by
  have := x.isLt
  rw [toNat_fieldN0, toNat_wordXkk hc x hk]
  omega

theorem fieldX_wordXyn {c n : Nat} (hc : c < 16) (x y : Reg) (hn : n < 16) : fieldX (wordXyn c x y n) = x := by
  have := x.isLt
  apply Fin.ext
  rw [val_fieldX, toNat_wordXyn hc x y hn]
  omega

theorem fieldY_wordXyn {c n : Nat} (hc : c < 16) (x y : Reg) (hn : n < 16) : fieldY (wordXyn c x y n) = y := by
  have := x.isLt
  apply Fin.ext
  rw [val_fieldY, toNat_wordXyn hc x y hn]
  omega

theorem toNat_fieldN3_wordXyn {c n : Nat} (hc : c < 16) (x y : Reg) (hn : n < 16) :
    (fieldN3 (wordXyn c x y n)).toNat = n := by
  have := x.isLt
  rw [toNat_fieldN3, toNat_wordXyn hc x y hn]
  omega

theorem fieldN_wordXyn {c : Nat} (hc : c < 16) (x y n : Reg) : fieldN (wordXyn c x y n.val) = n :=
  Fin.ext (toNat_fieldN3_wordXyn hc x y n.isLt)

theorem toNat_fieldN0_wordXyn {c n : Nat} (hc : c < 16) (x y : Reg) (hn : n < 16) :
    (fieldN0 (wordXyn c x y n)).toNat = c := by
  have := x.isLt
  rw [toNat_fieldN0, toNat_wordXyn hc x y hn]
  omega

/-- The two bytes of a word give the word back (20_memory.md R42). -/
theorem wordOfBytes_high_low (op : Word) : wordOfBytes (highByte op) (lowByte op) = op := by
  have := op.isLt
  apply BitVec.eq_of_toNat_eq
  simp only [wordOfBytes, highByte, lowByte, BitVec.toNat_ofNat, BitVec.extractLsb'_toNat, Nat.shiftRight_eq_div_pow]
  omega

end Sys2Proof
end

