-- ==== Sys2Proof/Laws/Memory.lean ====
section
/-! SUPPORT. Core memory: read after write, and that every memory operation keeps the canonical form. -/

namespace Sys2Proof.Machine

/-! ## One byte -/

theorem Memory.byteAt_consCell (a : Nat) (x : Byte) (m : Memory) (h : ∀ c ∈ m, a < c.1) (a' : Nat) :
    (Memory.consCell a x m).byteAt a' = if a' = a then x else m.byteAt a' := by
  unfold Memory.consCell
  by_cases hx : x = resetByte a
  · rw [if_pos hx]
    by_cases ha : a' = a
    · subst ha
      rw [if_pos rfl]
      cases m with
      | nil => simp [Memory.byteAt, hx]
      | cons c rest => simp [Memory.byteAt, h c (by simp), hx]
    · rw [if_neg ha]
  · rw [if_neg hx]
    by_cases ha : a' = a
    · simp [Memory.byteAt, ha]
    · rw [if_neg ha]
      by_cases hlt : a' < a
      · cases m with
        | nil => simp [Memory.byteAt, hlt]
        | cons c rest =>
          have hc : a' < c.1 := Nat.lt_trans hlt (h c (by simp))
          simp [Memory.byteAt, hlt, hc]
      · simp [Memory.byteAt, hlt, ha]

/-- An address below every listed one reads its reset content. -/
theorem Memory.byteAt_below {m : Memory} {a : Nat} (h : ∀ c ∈ m, a < c.1) : m.byteAt a = resetByte a := by
  cases m with
  | nil => rfl
  | cons c rest => simp [Memory.byteAt, h c (by simp)]

/-- Read after write, on a memory whose addresses rise. -/
theorem Memory.byteAt_setByte {m : Memory} (hm : List.Pairwise (fun c d => c.1 < d.1) m) (a : Nat) (x : Byte)
    (a' : Nat) : (m.setByte a x).byteAt a' = if a' = a then x else m.byteAt a' := by
  induction m with
  | nil => exact Memory.byteAt_consCell a x [] (by simp) a'
  | cons c rest ih =>
    obtain ⟨b, w⟩ := c
    obtain ⟨hb, hrest⟩ := List.pairwise_cons.mp hm
    rcases Nat.lt_trichotomy a b with hlt | heq | hgt
    · simp only [Memory.setByte, if_pos hlt]
      refine Memory.byteAt_consCell a x _ ?_ a'
      intro c hc
      rcases List.mem_cons.mp hc with rfl | hc
      · exact hlt
      · exact Nat.lt_trans hlt (hb c hc)
    · subst heq
      simp only [Memory.setByte, Nat.lt_irrefl, if_false, if_true]
      rw [Memory.byteAt_consCell a x rest hb a']
      by_cases ha : a' = a
      · simp [ha]
      · by_cases hlt : a' < a
        · simp [Memory.byteAt, ha, hlt, Memory.byteAt_below (fun c hc => Nat.lt_trans hlt (hb c hc))]
        · simp [Memory.byteAt, ha, hlt]
    · have hne : ¬ a = b := by omega
      have hnl : ¬ a < b := by omega
      simp only [Memory.setByte, if_neg hnl, if_neg hne, Memory.byteAt]
      by_cases h1 : a' < b
      · have : ¬ a' = a := by omega
        simp [h1, this]
      · by_cases h2 : a' = b
        · have : ¬ a' = a := by omega
          simp [h2, show ¬ b = a by omega]
        · simp [h1, h2, ih hrest]

/-! ## The canonical form -/

theorem Memory.consCell_wf {m : Memory} (hm : Memory.wf m) {a : Nat} (ha : a < 4096) (x : Byte)
    (h : ∀ c ∈ m, a < c.1) : Memory.wf (Memory.consCell a x m) := by
  unfold Memory.consCell
  split
  · exact hm
  · next hx =>
    refine ⟨List.pairwise_cons.mpr ⟨h, hm.1⟩, ?_⟩
    intro c hc
    rcases List.mem_cons.mp hc with rfl | hc
    · exact ⟨ha, hx⟩
    · exact hm.2 c hc

theorem Memory.mem_consCell {m : Memory} {a : Nat} {x : Byte} {c : Host.Cell} (h : c ∈ Memory.consCell a x m) :
    c.1 = a ∨ c ∈ m := by
  unfold Memory.consCell at h
  split at h
  · exact Or.inr h
  · rcases List.mem_cons.mp h with rfl | h
    · exact Or.inl rfl
    · exact Or.inr h

theorem Memory.mem_setByte {m : Memory} {a : Nat} {x : Byte} {c : Host.Cell} (h : c ∈ m.setByte a x) :
    c.1 = a ∨ c ∈ m := by
  induction m with
  | nil => exact Memory.mem_consCell h
  | cons d rest ih =>
    obtain ⟨b, w⟩ := d
    unfold Memory.setByte at h
    split at h
    · exact Memory.mem_consCell h
    · split at h
      · rcases Memory.mem_consCell h with h | h
        · exact Or.inl h
        · exact Or.inr (List.mem_cons_of_mem _ h)
      · rcases List.mem_cons.mp h with rfl | h
        · exact Or.inr (by simp)
        · rcases ih h with h | h
          · exact Or.inl h
          · exact Or.inr (List.mem_cons_of_mem _ h)

/-- A write inside memory keeps the canonical form. -/
theorem Memory.setByte_wf {m : Memory} (hm : Memory.wf m) {a : Nat} (ha : a < 4096) (x : Byte) :
    Memory.wf (m.setByte a x) := by
  induction m with
  | nil => exact Memory.consCell_wf hm ha x (by simp)
  | cons c rest ih =>
    obtain ⟨b, w⟩ := c
    obtain ⟨hp, hc⟩ := hm
    obtain ⟨hb, hrest⟩ := List.pairwise_cons.mp hp
    have hr : Memory.wf rest := ⟨hrest, fun c h => hc c (List.mem_cons_of_mem _ h)⟩
    unfold Memory.setByte
    split
    · next hlt =>
      refine Memory.consCell_wf ⟨hp, hc⟩ ha x ?_
      intro c h
      rcases List.mem_cons.mp h with rfl | h
      · exact hlt
      · exact Nat.lt_trans hlt (hb c h)
    · split
      · next heq =>
        subst heq
        exact Memory.consCell_wf hr ha x hb
      · next hnl hne =>
        have h' := ih hr
        refine ⟨List.pairwise_cons.mpr ⟨?_, h'.1⟩, ?_⟩
        · intro c h
          rcases Memory.mem_setByte h with h | h
          · show b < c.1
            omega
          · exact hb c h
        · intro c h
          rcases List.mem_cons.mp h with rfl | h
          · exact hc _ (by simp)
          · exact h'.2 c h

/-- Writing a run of bytes inside memory keeps the canonical form. -/
theorem Memory.setBytes_wf {m : Memory} (hm : Memory.wf m) {a : Nat} {xs : List Byte}
    (ha : a + xs.length ≤ 4096) : Memory.wf (m.setBytes a xs) := by
  induction xs generalizing m a with
  | nil => exact hm
  | cons x xs ih =>
    simp only [List.length_cons] at ha
    exact ih (Memory.setByte_wf hm (by omega) x) (by omega)

/-- The reset memory has the canonical form. -/
theorem Memory.reset_wf : Memory.wf State.reset.mem := by decide

/-! ## Runs of bytes -/

@[simp] theorem Memory.length_bytesAt (m : Memory) (a n : Nat) : (m.bytesAt a n).length = n := by
  induction n generalizing a with
  | zero => rfl
  | succ n ih => simp [Memory.bytesAt, ih]

@[simp] theorem Memory.getElem_bytesAt (m : Memory) (a n k : Nat) (h : k < (m.bytesAt a n).length) :
    (m.bytesAt a n)[k] = m.byteAt (a + k) := by
  induction n generalizing a k with
  | zero => simp [Memory.bytesAt] at h
  | succ n ih =>
    cases k with
    | zero => rfl
    | succ k =>
      simp only [Memory.bytesAt, List.getElem_cons_succ]
      rw [ih (a + 1) k]
      congr 1
      omega

/-- Read after a run of writes inside memory. -/
theorem Memory.byteAt_setBytes {m : Memory} (hm : Memory.wf m) {a : Nat} {xs : List Byte}
    (ha : a + xs.length ≤ 4096) (a' : Nat) :
    (m.setBytes a xs).byteAt a' = if a ≤ a' ∧ a' < a + xs.length then xs.getD (a' - a) 0 else m.byteAt a' := by
  induction xs generalizing m a with
  | nil =>
    have : ¬ (a ≤ a' ∧ a' < a + ([] : List Byte).length) := by simp
    rw [if_neg this]
    rfl
  | cons x xs ih =>
    simp only [List.length_cons] at ha
    simp only [Memory.setBytes]
    rw [ih (Memory.setByte_wf hm (by omega) x) (by omega), Memory.byteAt_setByte hm.1]
    simp only [List.length_cons]
    rcases Nat.lt_trichotomy a' a with h | h | h
    · rw [if_neg (by omega), if_neg (by omega), if_neg (by omega)]
    · subst h
      rw [if_neg (by omega), if_pos rfl, if_pos (by omega), Nat.sub_self]
      rfl
    · by_cases h2 : a' < a + 1 + xs.length
      · rw [if_pos (by omega), if_pos (by omega)]
        obtain ⟨k, hk⟩ : ∃ k, a' - a = k + 1 := ⟨a' - a - 1, by omega⟩
        have hk' : a' - (a + 1) = k := by omega
        rw [hk, hk']
        rfl
      · rw [if_neg (by omega), if_neg (by omega), if_neg (by omega)]

/-! ## Checked accesses: everything each can answer -/

/-- `MemRead` (20_memory.md R44). -/
theorem memRead_cases (m : Memory) (a n : Nat) :
    (n = 0 ∧ memRead m a n = .ok []) ∨
    (0 < n ∧ 4095 < a + n - 1 ∧ memRead m a n = .error (.memoryOutOfBounds (a + n - 1))) ∨
    (0 < n ∧ a + n - 1 ≤ 4095 ∧ memRead m a n = .ok (m.bytesAt a n)) := by
  unfold memRead
  by_cases h0 : n = 0
  · exact Or.inl ⟨h0, if_pos h0⟩
  · by_cases h1 : a + n - 1 > 4095
    · exact Or.inr (Or.inl ⟨by omega, by omega, by rw [if_neg h0, if_pos h1]⟩)
    · exact Or.inr (Or.inr ⟨by omega, by omega, by rw [if_neg h0, if_neg h1]⟩)

/-- `MemWrite` (20_memory.md R45). -/
theorem memWrite_cases (m : Memory) (a : Nat) (xs : List Byte) :
    (4095 < a + xs.length - 1 ∧ memWrite m a xs = .error (.memoryOutOfBounds (a + xs.length - 1))) ∨
    (a + xs.length - 1 ≤ 4095 ∧ memWrite m a xs = .ok (m.setBytes a xs)) := by
  unfold memWrite
  by_cases h1 : a + xs.length - 1 > 4095
  · exact Or.inl ⟨by omega, if_pos h1⟩
  · exact Or.inr ⟨by omega, if_neg h1⟩

/-- A write that MemWrite admits keeps the canonical form. -/
theorem memWrite_wf {m m' : Memory} {a : Nat} {xs : List Byte} (hm : Memory.wf m) (hx : xs ≠ [])
    (h : memWrite m a xs = .ok m') : Memory.wf m' := by
  have hl : 0 < xs.length := List.length_pos_iff.mpr hx
  rcases memWrite_cases m a xs with ⟨_, he⟩ | ⟨hb, he⟩
  · rw [he] at h
    cases h
  · rw [he] at h
    cases h
    exact Memory.setBytes_wf hm (by omega)

end Sys2Proof.Machine
end

