-- ==== Sys2Proof/Laws/Ops.lean ====
section
/-! SUPPORT. One lemma per shared operation: everything it can answer. -/

namespace Sys2Proof.Machine

@[simp] theorem orRaise_ok {α : Type} (a : α) (go : α → Result) : orRaise (.ok a) go = go a := rfl

@[simp] theorem orRaise_error {α : Type} (f : Fault) (go : α → Result) : orRaise (.error f) go = .fault f := rfl

/-- A command completes exactly when the operation succeeds and the rest completes. -/
theorem orRaise_next {α : Type} {r : Except Fault α} {go : α → Result} {t : State} :
    orRaise r go = .next t ↔ ∃ a, r = .ok a ∧ go a = .next t := by
  cases r with
  | ok a => simp
  | error f => simp

/-! ## Stack engine -/

/-- `push` (40_control_transfer.md R86). -/
theorem push_cases (s : State) (a : Word) :
    (s.sp = 16 ∧ push s a = .error .stackOverflow) ∨
    (∃ h : s.sp.val < 16,
      push s a = .ok { s with stack := s.stack.set s.sp.val a, sp := ⟨s.sp.val + 1, by omega⟩ }) := by
  unfold push
  by_cases h : s.sp.val < 16
  · exact Or.inr ⟨h, dif_pos h⟩
  · exact Or.inl ⟨by omega, dif_neg h⟩

/-- `pop` (40_control_transfer.md R87). -/
theorem pop_cases (s : State) :
    (s.sp = 0 ∧ pop s = .error .stackUnderflow) ∨
    (s.sp.val ≠ 0 ∧ ∃ hs : s.sp.val - 1 < 16,
      pop s = .ok (s.stack[s.sp.val - 1], { s with sp := ⟨s.sp.val - 1, by omega⟩ })) := by
  unfold pop
  by_cases h : s.sp.val = 0
  · exact Or.inl ⟨Fin.ext h, dif_pos h⟩
  · exact Or.inr ⟨h, by omega, dif_neg h⟩

/-! ## Registers -/

/-- `setRegs` writes `bytes[j - k]` to each register `j` from `k` on that the bytes reach. -/
theorem getElem_setRegs (v : Vector Byte 16) (k : Nat) (bs : List Byte) (j : Nat) (hj : j < 16) :
    (setRegs v k bs)[j] = if k ≤ j ∧ j < k + bs.length then bs.getD (j - k) 0 else v[j] := by
  induction bs generalizing v k with
  | nil =>
    have : ¬ (k ≤ j ∧ j < k + ([] : List Byte).length) := by simp
    rw [if_neg this]
    rfl
  | cons b bs ih =>
    simp only [setRegs, ih, List.length_cons]
    rcases Nat.lt_trichotomy j k with h | h | h
    · rw [if_neg (by omega), if_neg (by omega), Vector.getElem_setIfInBounds, if_neg (by omega)]
    · subst h
      rw [if_neg (by omega), if_pos (by omega), Vector.getElem_setIfInBounds, if_pos rfl, Nat.sub_self]
      rfl
    · by_cases h2 : j < k + 1 + bs.length
      · rw [if_pos (by omega), if_pos (by omega)]
        obtain ⟨m, hm⟩ : ∃ m, j - k = m + 1 := ⟨j - k - 1, by omega⟩
        have hm' : j - (k + 1) = m := by omega
        rw [hm, hm']
        rfl
      · rw [if_neg (by omega), if_neg (by omega), Vector.getElem_setIfInBounds, if_neg (by omega)]

@[simp] theorem length_regsUpTo (x : Reg) (s : State) : (regsUpTo x s).length = x.val + 1 := by
  simp [regsUpTo]

theorem getD_regsUpTo (x : Reg) (s : State) (k : Nat) (hk : k ≤ x.val) (h16 : k < 16) :
    (regsUpTo x s).getD k 0 = s.v[k] := by
  have hl : k < (regsUpTo x s).length := by
    rw [length_regsUpTo]
    omega
  rw [List.getD_eq_getElem _ _ hl]
  simp [regsUpTo]

/-! ## ALU -/

/-- One ALU instruction, at the default of `VF_PRIORITY` (42_load_alu.md R122, R123): the result goes to `V[x]`, then
an enabled flag to VF, so that the flag survives for `x = 15`. -/
theorem aluStep_eq (fn : AluFn) (x : Reg) (b : Byte) (s : State) :
    aluStep fn x b s =
      if (alu fn s.v[x] b).flagWe then
        (s.setV x (alu fn s.v[x] b).r).setVF (flagByte (alu fn s.v[x] b).flag)
      else s.setV x (alu fn s.v[x] b).r := rfl

/-- An ALU instruction writes nothing but registers. -/
theorem aluStep_frame (fn : AluFn) (x : Reg) (b : Byte) (s : State) :
    ∃ w, aluStep fn x b s = { s with v := w } := by
  rw [aluStep_eq]
  split
  · exact ⟨_, rfl⟩
  · exact ⟨_, rfl⟩

/-! ## Keypad -/

/-- `get_key` (45_keypad_timers.md R156). -/
theorem getKey_cases (s : State) (k : Nat) :
    (15 < k ∧ getKey s k = .error (.invalidKeyIndex k)) ∨ (∃ h : k < 16, getKey s k = .ok s.key[k]) := by
  unfold getKey
  by_cases h : k < 16
  · exact Or.inr ⟨h, dif_pos h⟩
  · exact Or.inl ⟨by omega, dif_neg h⟩

/-- `key_down` and `key_up` (60_exceptions.md R186, R187). -/
theorem writeKey_cases (s : State) (k : Nat) (down : Bool) :
    (15 < k ∧ writeKey s k down = .error (.invalidKeyIndex k)) ∨
    (∃ h : k < 16, writeKey s k down = .ok { s with key := s.key.set k down }) := by
  unfold writeKey
  by_cases h : k < 16
  · exact Or.inr ⟨h, dif_pos h⟩
  · exact Or.inl ⟨by omega, dif_neg h⟩

/-- Folding "the last one that is down" over any list of keys. -/
theorem foldl_last_down (key : Vector Bool 16) (ks : List (Fin 16)) (a : Option (Fin 16)) :
    ks.foldl (fun found k => if key[k] then some k else found) a =
      ((ks.reverse.find? (fun k => key[k])).or a) := by
  induction ks generalizing a with
  | nil => simp
  | cons k ks ih =>
    simp only [List.foldl_cons, ih, List.reverse_cons, List.find?_append]
    cases ks.reverse.find? (fun k => key[k]) with
    | some m => simp
    | none => by_cases h : key[k] <;> simp_all

/-- `scan` finds the first key that is down from 0xF downwards (45_keypad_timers.md R152). -/
theorem scanKeys_eq (s : State) : scanKeys s = allKeys.reverse.find? (fun k => s.key[k]) := by
  rw [scanKeys, foldl_last_down, Option.or_none]

/-! ## Framebuffer -/

theorem Display.row_set (d : Display) {r : Nat} (hr : r < 32) (w : BitVec 64) (r' : Nat) :
    Display.row (d.setIfInBounds r w) r' = if r' = r then w else d.row r' := by
  by_cases h : r' = r
  · subst h
    simp [Display.row, hr]
  · have h' : ¬ r = r' := fun e => h e.symm
    simp [Display.row, h, h']

theorem getLsbD_rowWithBit (w : BitVec 64) {c : Nat} (hc : c < 64) (b : Bool) (k : Nat) :
    (rowWithBit w c b).getLsbD k = if k = c then b else w.getLsbD k := by
  unfold rowWithBit
  by_cases hk : k = c
  · subst hk
    cases b <;> simp [hc]
  · have hk' : ¬ c = k := fun e => hk e.symm
    by_cases h64 : k < 64
    · cases b <;> simp [hk, h64]
    · have hge : 64 ≤ k := by omega
      cases b <;> simp [hk, BitVec.getLsbD_of_ge _ _ hge]

/-- A written pixel reads as written and every other pixel is unchanged. -/
theorem Display.pixel_setPixel (d : Display) {p : Nat} (hp : p < 2048) (b : Bool) (q : Nat) :
    (d.setPixel p b).pixel q = if q = p then b else d.pixel q := by
  have hr : p / 64 < 32 := by omega
  have hc : p % 64 < 64 := by omega
  simp only [Display.setPixel, Display.pixel]
  rw [Display.row_set d hr]
  by_cases hrow : q / 64 = p / 64
  · rw [if_pos hrow, getLsbD_rowWithBit _ hc, hrow]
    by_cases hq : q = p
    · subst hq
      simp
    · rw [if_neg hq, if_neg (by omega)]
  · rw [if_neg hrow, if_neg (fun e => hrow (by rw [e]))]

/-! ## Fetch and step -/

/-- The fetch (30_encoding.md R61). -/
theorem fetch_cases (m : Memory) (pc : Word) :
    (0xFFE < pc.toNat ∧ fetch m pc = .error (.memoryOutOfBounds (pc.toNat + 1))) ∨
    (pc.toNat ≤ 0xFFE ∧ fetch m pc = .ok (wordOfBytes (m.byteAt pc.toNat) (m.byteAt (pc.toNat + 1)))) := by
  unfold fetch
  rcases memRead_cases m pc.toNat 2 with ⟨h, _⟩ | ⟨_, h, he⟩ | ⟨_, h, he⟩
  · omega
  · rw [he]
    exact Or.inl ⟨by omega, rfl⟩
  · rw [he]
    exact Or.inr ⟨by omega, rfl⟩

/-- A cycle that completes runs the decoded instruction in the state whose PC is advanced (30_encoding.md R60). -/
theorem cycle_next {s t : State} (h : cycle s = .next t) :
    s.pc.toNat ≤ 0xFFE ∧ ∃ op, fetch s.mem s.pc = .ok op ∧ exec (decode op) s.advance = .next t := by
  obtain ⟨op, hf, he⟩ := orRaise_next.mp h
  rcases fetch_cases s.mem s.pc with ⟨_, hx⟩ | ⟨hb, _⟩
  · rw [hx] at hf
    cases hf
  · exact ⟨hb, op, hf, he⟩

theorem step_of_pending_nil {s : State} (h : s.pending = []) : step s = cycle s := by
  simp [step, performNext, takeCommand, h, command]

theorem step_of_pending_cons {s : State} {c : Command} {cs : List Command} (h : s.pending = c :: cs) :
    step s = command c (s.setPending cs) := by
  simp [step, performNext, takeCommand, h]

end Sys2Proof.Machine
end

