-- ==== Sys2Proof/Laws/PerInstr.lean ====
section
/-! SUPPORT. The family EncodedClass, one lemma per constructor: the first digit of an instruction's word is the class
of its pattern in 30_encoding.md R64. -/

namespace Sys2Proof.Laws.EncodedClass

/-- The class of each pattern of 30_encoding.md R64 (its first digit); UNKNOWN has the class of the word it carries. -/
def classOf : Instr → Nat
  | .cls => 0x0
  | .ret => 0x0
  | .sys _ => 0x0
  | .jp _ => 0x1
  | .call _ => 0x2
  | .seImm _ _ => 0x3
  | .sneImm _ _ => 0x4
  | .seReg _ _ => 0x5
  | .ldImm _ _ => 0x6
  | .addImm _ _ => 0x7
  | .ldReg _ _ => 0x8
  | .or _ _ => 0x8
  | .and _ _ => 0x8
  | .xor _ _ => 0x8
  | .addReg _ _ => 0x8
  | .sub _ _ => 0x8
  | .shr _ _ => 0x8
  | .subn _ _ => 0x8
  | .shl _ _ => 0x8
  | .sneReg _ _ => 0x9
  | .ldI _ => 0xA
  | .jpV0 _ => 0xB
  | .rnd _ _ => 0xC
  | .drw _ _ _ => 0xD
  | .skp _ => 0xE
  | .sknp _ => 0xE
  | .ldVxDt _ => 0xF
  | .ldVxK _ => 0xF
  | .ldDtVx _ => 0xF
  | .ldStVx _ => 0xF
  | .addI _ => 0xF
  | .ldF _ => 0xF
  | .bcd _ => 0xF
  | .stRegs _ => 0xF
  | .ldRegs _ => 0xF
  | .unknown op => op.toNat / 4096

/-- The word of `i` is of the class of its pattern. -/
def Statement (i : Instr) : Prop := (fieldN0 (encode i)).toNat = classOf i

theorem cls : Statement (.cls) := by
  unfold Statement
  decide

theorem ret : Statement (.ret) := by
  unfold Statement
  decide

theorem sys (nnn : Addr12) : Statement (.sys nnn) := by
  have := nnn.isLt
  have h := toNat_wordNnn (c := 0x0) (by omega) nnn
  simp only [Statement, toNat_fieldN0, encode, h, classOf]
  omega

theorem jp (nnn : Addr12) : Statement (.jp nnn) := by
  have := nnn.isLt
  have h := toNat_wordNnn (c := 0x1) (by omega) nnn
  simp only [Statement, toNat_fieldN0, encode, h, classOf]
  omega

theorem call (nnn : Addr12) : Statement (.call nnn) := by
  have := nnn.isLt
  have h := toNat_wordNnn (c := 0x2) (by omega) nnn
  simp only [Statement, toNat_fieldN0, encode, h, classOf]
  omega

theorem seImm (x : Reg) (kk : Byte) : Statement (.seImm x kk) := by
  have := x.isLt
  have := kk.isLt
  have h := toNat_wordXkk (c := 0x3) (by omega) x kk.isLt
  simp only [Statement, toNat_fieldN0, encode, h, classOf]
  omega

theorem sneImm (x : Reg) (kk : Byte) : Statement (.sneImm x kk) := by
  have := x.isLt
  have := kk.isLt
  have h := toNat_wordXkk (c := 0x4) (by omega) x kk.isLt
  simp only [Statement, toNat_fieldN0, encode, h, classOf]
  omega

theorem seReg (x : Reg) (y : Reg) : Statement (.seReg x y) := by
  have := x.isLt
  have := y.isLt
  have h := toNat_wordXyn (c := 0x5) (n := 0x0) (by omega) x y (by omega)
  simp only [Statement, toNat_fieldN0, encode, h, classOf]
  omega

theorem ldImm (x : Reg) (kk : Byte) : Statement (.ldImm x kk) := by
  have := x.isLt
  have := kk.isLt
  have h := toNat_wordXkk (c := 0x6) (by omega) x kk.isLt
  simp only [Statement, toNat_fieldN0, encode, h, classOf]
  omega

theorem addImm (x : Reg) (kk : Byte) : Statement (.addImm x kk) := by
  have := x.isLt
  have := kk.isLt
  have h := toNat_wordXkk (c := 0x7) (by omega) x kk.isLt
  simp only [Statement, toNat_fieldN0, encode, h, classOf]
  omega

theorem ldReg (x : Reg) (y : Reg) : Statement (.ldReg x y) := by
  have := x.isLt
  have := y.isLt
  have h := toNat_wordXyn (c := 0x8) (n := 0x0) (by omega) x y (by omega)
  simp only [Statement, toNat_fieldN0, encode, h, classOf]
  omega

theorem or (x : Reg) (y : Reg) : Statement (.or x y) := by
  have := x.isLt
  have := y.isLt
  have h := toNat_wordXyn (c := 0x8) (n := 0x1) (by omega) x y (by omega)
  simp only [Statement, toNat_fieldN0, encode, h, classOf]
  omega

theorem and (x : Reg) (y : Reg) : Statement (.and x y) := by
  have := x.isLt
  have := y.isLt
  have h := toNat_wordXyn (c := 0x8) (n := 0x2) (by omega) x y (by omega)
  simp only [Statement, toNat_fieldN0, encode, h, classOf]
  omega

theorem xor (x : Reg) (y : Reg) : Statement (.xor x y) := by
  have := x.isLt
  have := y.isLt
  have h := toNat_wordXyn (c := 0x8) (n := 0x3) (by omega) x y (by omega)
  simp only [Statement, toNat_fieldN0, encode, h, classOf]
  omega

theorem addReg (x : Reg) (y : Reg) : Statement (.addReg x y) := by
  have := x.isLt
  have := y.isLt
  have h := toNat_wordXyn (c := 0x8) (n := 0x4) (by omega) x y (by omega)
  simp only [Statement, toNat_fieldN0, encode, h, classOf]
  omega

theorem sub (x : Reg) (y : Reg) : Statement (.sub x y) := by
  have := x.isLt
  have := y.isLt
  have h := toNat_wordXyn (c := 0x8) (n := 0x5) (by omega) x y (by omega)
  simp only [Statement, toNat_fieldN0, encode, h, classOf]
  omega

theorem shr (x : Reg) (y : Reg) : Statement (.shr x y) := by
  have := x.isLt
  have := y.isLt
  have h := toNat_wordXyn (c := 0x8) (n := 0x6) (by omega) x y (by omega)
  simp only [Statement, toNat_fieldN0, encode, h, classOf]
  omega

theorem subn (x : Reg) (y : Reg) : Statement (.subn x y) := by
  have := x.isLt
  have := y.isLt
  have h := toNat_wordXyn (c := 0x8) (n := 0x7) (by omega) x y (by omega)
  simp only [Statement, toNat_fieldN0, encode, h, classOf]
  omega

theorem shl (x : Reg) (y : Reg) : Statement (.shl x y) := by
  have := x.isLt
  have := y.isLt
  have h := toNat_wordXyn (c := 0x8) (n := 0xE) (by omega) x y (by omega)
  simp only [Statement, toNat_fieldN0, encode, h, classOf]
  omega

theorem sneReg (x : Reg) (y : Reg) : Statement (.sneReg x y) := by
  have := x.isLt
  have := y.isLt
  have h := toNat_wordXyn (c := 0x9) (n := 0x0) (by omega) x y (by omega)
  simp only [Statement, toNat_fieldN0, encode, h, classOf]
  omega

theorem ldI (nnn : Addr12) : Statement (.ldI nnn) := by
  have := nnn.isLt
  have h := toNat_wordNnn (c := 0xA) (by omega) nnn
  simp only [Statement, toNat_fieldN0, encode, h, classOf]
  omega

theorem jpV0 (nnn : Addr12) : Statement (.jpV0 nnn) := by
  have := nnn.isLt
  have h := toNat_wordNnn (c := 0xB) (by omega) nnn
  simp only [Statement, toNat_fieldN0, encode, h, classOf]
  omega

theorem rnd (x : Reg) (kk : Byte) : Statement (.rnd x kk) := by
  have := x.isLt
  have := kk.isLt
  have h := toNat_wordXkk (c := 0xC) (by omega) x kk.isLt
  simp only [Statement, toNat_fieldN0, encode, h, classOf]
  omega

theorem drw (x : Reg) (y : Reg) (n : Fin 16) : Statement (.drw x y n) := by
  have := x.isLt
  have := y.isLt
  have := n.isLt
  have h := toNat_wordXyn (c := 0xD) (by omega) x y n.isLt
  simp only [Statement, toNat_fieldN0, encode, h, classOf]
  omega

theorem skp (x : Reg) : Statement (.skp x) := by
  have := x.isLt
  have h := toNat_wordXkk (c := 0xE) (kk := 0x9E) (by omega) x (by omega)
  simp only [Statement, toNat_fieldN0, encode, h, classOf]
  omega

theorem sknp (x : Reg) : Statement (.sknp x) := by
  have := x.isLt
  have h := toNat_wordXkk (c := 0xE) (kk := 0xA1) (by omega) x (by omega)
  simp only [Statement, toNat_fieldN0, encode, h, classOf]
  omega

theorem ldVxDt (x : Reg) : Statement (.ldVxDt x) := by
  have := x.isLt
  have h := toNat_wordXkk (c := 0xF) (kk := 0x07) (by omega) x (by omega)
  simp only [Statement, toNat_fieldN0, encode, h, classOf]
  omega

theorem ldVxK (x : Reg) : Statement (.ldVxK x) := by
  have := x.isLt
  have h := toNat_wordXkk (c := 0xF) (kk := 0x0A) (by omega) x (by omega)
  simp only [Statement, toNat_fieldN0, encode, h, classOf]
  omega

theorem ldDtVx (x : Reg) : Statement (.ldDtVx x) := by
  have := x.isLt
  have h := toNat_wordXkk (c := 0xF) (kk := 0x15) (by omega) x (by omega)
  simp only [Statement, toNat_fieldN0, encode, h, classOf]
  omega

theorem ldStVx (x : Reg) : Statement (.ldStVx x) := by
  have := x.isLt
  have h := toNat_wordXkk (c := 0xF) (kk := 0x18) (by omega) x (by omega)
  simp only [Statement, toNat_fieldN0, encode, h, classOf]
  omega

theorem addI (x : Reg) : Statement (.addI x) := by
  have := x.isLt
  have h := toNat_wordXkk (c := 0xF) (kk := 0x1E) (by omega) x (by omega)
  simp only [Statement, toNat_fieldN0, encode, h, classOf]
  omega

theorem ldF (x : Reg) : Statement (.ldF x) := by
  have := x.isLt
  have h := toNat_wordXkk (c := 0xF) (kk := 0x29) (by omega) x (by omega)
  simp only [Statement, toNat_fieldN0, encode, h, classOf]
  omega

theorem bcd (x : Reg) : Statement (.bcd x) := by
  have := x.isLt
  have h := toNat_wordXkk (c := 0xF) (kk := 0x33) (by omega) x (by omega)
  simp only [Statement, toNat_fieldN0, encode, h, classOf]
  omega

theorem stRegs (x : Reg) : Statement (.stRegs x) := by
  have := x.isLt
  have h := toNat_wordXkk (c := 0xF) (kk := 0x55) (by omega) x (by omega)
  simp only [Statement, toNat_fieldN0, encode, h, classOf]
  omega

theorem ldRegs (x : Reg) : Statement (.ldRegs x) := by
  have := x.isLt
  have h := toNat_wordXkk (c := 0xF) (kk := 0x65) (by omega) x (by omega)
  simp only [Statement, toNat_fieldN0, encode, h, classOf]
  omega

theorem unknown (op : Word) : Statement (.unknown op) := by
  exact toNat_fieldN0 op

end Sys2Proof.Laws.EncodedClass
end

