-- ==== Sys2Proof/Machine/Signals.lean ====
section
/-! DEFINITION. The signal-level binding that 60_exceptions.md R195 offers, as functions on the values of the wires
(log entry 21). Clock, handshake and cycle counts are outside the scope (00_scope.md section 3); no other file depends
on this one. -/

namespace Sys2Proof.Machine

/-- The command that a core with this binding takes from the wires `cmd`, `key_idx`, `rom_len` and the bytes offered on
`rom_data`; codes 6 and 7 are no command. The host offers `rom_len` bytes. -/
def commandOfSignals (cmd : BitVec 3) (keyIdx : BitVec 4) (romLen : BitVec 13) (romData : List Byte) :
    Option Command :=
  match cmd.toNat with
  | 0 => some .reset
  | 1 => some .cycle
  | 2 => some .decrementTimers
  | 3 => some (.keyDown keyIdx.toNat)
  | 4 => some (.keyUp keyIdx.toNat)
  | 5 => if romData.length = romLen.toNat then some (.loadRom romData) else none
  | _ => none

/-- `fail_code`, valid with `done` (60_exceptions.md R195). -/
def failCode (c : Command) (s : State) : BitVec 3 := BitVec.ofNat 3 (resultCode c s)

/-- `sound_on` (60_exceptions.md R195). -/
def soundOn (s : State) : Bool := isSoundPlaying s

/-- The read port on Px: `px_data` for `px_addr` (60_exceptions.md R195). -/
def pxData (s : State) (pxAddr : BitVec 11) : Bool := s.px.pixel pxAddr.toNat

end Sys2Proof.Machine
end

