-- ==== Sys2Proof/Tests/Slice0.lean ====
section
/-! SUPPORT. Tests: expected values are the spec's own examples and vectors (95_test_vectors.md and the Example lines of
the instruction rules), or words written out from the patterns of 30_encoding.md R64. -/

namespace Sys2Proof.Tests

open Sys2Proof.Machine

/-! ## Helpers -/

/-- A state like reset with some registers set. -/
def regs (rs : List (Fin 16 × Byte)) : State := rs.foldl (fun s r => s.setV r.1 r.2) State.reset

/-- The next step of `s` when the word `op` stands at its fetch address, seen through `f`. -/
def after {α : Type} (s : State) (op : Nat) (f : State → α) : Option α :=
  match step (s.withFetchWord 16 op) with
  | .next t => some (f t)
  | .fault _ => none
  | .refused _ => none

/-- The failure of that step. -/
def failure (s : State) (op : Nat) : Option Fault :=
  match step (s.withFetchWord 16 op) with
  | .next _ => none
  | .fault f => some f
  | .refused _ => none

/-! ## WellFormed refuses an ill-formed term (one test for each check) -/

theorem test_wf_refuses_sys_0E0 : (Instr.sys 0x0E0).wf = false := by decide
theorem test_wf_refuses_sys_0EE : (Instr.sys 0x0EE).wf = false := by decide
theorem test_wf_refuses_unknown_class5 : (Instr.unknown 0x5AB0).wf = false := by decide
theorem test_wf_refuses_unknown_class8 : (Instr.unknown 0x8AB7).wf = false := by decide
theorem test_wf_refuses_unknown_class9 : (Instr.unknown 0x9AB0).wf = false := by decide
theorem test_wf_refuses_unknown_classE : (Instr.unknown 0xE19E).wf = false := by decide
theorem test_wf_refuses_unknown_classF : (Instr.unknown 0xF265).wf = false := by decide
theorem test_wf_refuses_unknown_other_class : (Instr.unknown 0x1234).wf = false := by decide
theorem test_wf_admits_unknown : (Instr.unknown 0x8ABD).wf = true := by decide

/-! ## Decoding: words written out from the patterns of 30_encoding.md R64 -/

theorem test_decode_control : [0x00E0, 0x00EE, 0x01E0, 0x0FEE, 0x1A2A, 0x2ABC, 0xB300].map decode =
    [.cls, .ret, .sys 0x1E0, .sys 0xFEE, .jp 0xA2A, .call 0xABC, .jpV0 0x300] := by decide
theorem test_decode_skips : [0x3342, 0x4F00, 0x5AB0, 0x9AB0].map decode =
    [.seImm 3 0x42, .sneImm 15 0x00, .seReg 10 11, .sneReg 10 11] := by decide
theorem test_decode_loads : [0x6A7F, 0x7002, 0xC30F].map decode =
    [.ldImm 10 0x7F, .addImm 0 0x02, .rnd 3 0x0F] := by decide
theorem test_decode_class8_low : [0x8120, 0x8121, 0x8122, 0x8123, 0x8124].map decode =
    [.ldReg 1 2, .or 1 2, .and 1 2, .xor 1 2, .addReg 1 2] := by decide
theorem test_decode_class8_high : [0x8125, 0x81F6, 0x8AB7, 0x8ABE].map decode =
    [.sub 1 2, .shr 1 15, .subn 10 11, .shl 10 11] := by decide
theorem test_decode_index : [0xAFFF, 0xF21E, 0xF029].map decode = [.ldI 0xFFF, .addI 2, .ldF 0] := by decide
theorem test_decode_memory : [0xF233, 0xF255, 0xF265].map decode = [.bcd 2, .stRegs 2, .ldRegs 2] := by decide
theorem test_decode_display_keys : [0xD125, 0xE39E, 0xE3A1, 0xF30A].map decode =
    [.drw 1 2 5, .skp 3, .sknp 3, .ldVxK 3] := by decide
theorem test_decode_timers : [0xF407, 0xF315, 0xF318].map decode = [.ldVxDt 4, .ldDtVx 3, .ldStVx 3] := by decide
theorem test_decode_unknown : [0x5AB1, 0x8AB8, 0x9ABF, 0xE19F, 0xF175].map decode =
    [.unknown 0x5AB1, .unknown 0x8AB8, .unknown 0x9ABF, .unknown 0xE19F, .unknown 0xF175] := by decide
theorem test_decode_bytes : decodeBytes [0x2A, 0xBC, 0x00] = .ok (.call 0xABC, [0x00]) := by decide
theorem test_decode_bytes_short : decodeBytes [0x2A] = .error (.truncated 1) := by decide
theorem test_decode_table_word : decodeTableWord 16 0xD125 = some (.drw 1 2 5) := by decide
theorem test_encode : [Instr.drw 1 2 5, .call 0xABC, .shl 10 11, .ldRegs 2].map encode =
    [0xD125, 0x2ABC, 0x8ABE, 0xF265] := by decide
theorem test_fields : fields 0xD125 = ⟨0xD, 1, 2, 5, 0x125, 0x25, 1, 2, 5⟩ := by decide
theorem test_first_match : [0x00EE, 0x0FEE, 0x8ABE, 0xE19E, 0xF175].map firstMatch =
    [some "RET", some "SYS", some "SHL", some "SKP", some "UNKNOWN"] := by decide
theorem test_assembly : [Instr.drw 1 2 5, .stRegs 1, .unknown 0xF175].map Instr.assembly =
    ["DRW V1, V2, 5", "LD [I], V1", ".word 0xF175"] := by decide

/-! ## Control transfer (95_test_vectors.md 2.2, S13, S14) -/

theorem test_jp : after State.reset 0x1A2A (·.pc) = some 0x0A2A := by decide
theorem test_call_from_odd_address : after { State.reset with pc := 0x23 } 0x2ABC
    (fun t => (t.pc, t.stack[0], t.sp)) = some (0x0ABC, 0x25, 1) := by decide
theorem test_call_sixteenth : after { State.reset with pc := 0x400, sp := 15 } 0x2300
    (fun t => (t.stack[15], t.sp)) = some (0x0402, 16) := by decide
theorem test_call_overflow : failure { State.reset with sp := 16 } 0x2300 = some .stackOverflow := by decide
theorem test_ret_keeps_slot : after { State.reset with sp := 2, stack := State.reset.stack.set 1 0x0ABE } 0x00EE
    (fun t => (t.pc, t.sp, t.stack[1])) = some (0x0ABE, 1, 0x0ABE) := by decide
theorem test_ret_underflow : failure State.reset 0x00EE = some .stackUnderflow := by decide
theorem test_jp_v0_not_vx : after (regs [(0, 0x02), (3, 0x40)]) 0xB300 (·.pc) = some 0x0302 := by decide
theorem test_jp_v0_past_memory : after (regs [(0, 0xFF)]) 0xBFFF (·.pc) = some 0x10FE := by decide
theorem test_sys : after State.reset 0x0ABC (fun t => (t.pc, t.v)) = some (0x0202, State.reset.v) := by decide
theorem test_unknown : after State.reset 0x5121 (fun t => (t.pc, t.v)) = some (0x0202, State.reset.v) := by decide

/-! ## Skips (95_test_vectors.md 2.3) -/

theorem test_se_imm : after (regs [(3, 0x42)]) 0x3342 (·.pc) = some 0x204 := by decide
theorem test_se_imm_not : after (regs [(3, 0x42)]) 0x3343 (·.pc) = some 0x202 := by decide
theorem test_sne_imm : after (regs [(15, 0x01)]) 0x4F00 (·.pc) = some 0x204 := by decide
theorem test_se_reg_unsigned : after (regs [(1, 0x80), (2, 0x7F)]) 0x5120 (·.pc) = some 0x202 := by decide
theorem test_se_reg_same : after (regs [(3, 0x77)]) 0x5330 (·.pc) = some 0x204 := by decide
theorem test_sne_reg : after (regs [(1, 0x80), (2, 0x7F)]) 0x9120 (·.pc) = some 0x204 := by decide
theorem test_skip_at_end : after { State.reset with pc := 0xFFE } 0x3000 (·.pc) = some 0x1002 := by decide

/-! ## Loads and ALU (95_test_vectors.md 2.4) -/

theorem test_ld_imm_vf : after State.reset 0x6FAB (fun t => t.v[15]) = some 0xAB := by decide
theorem test_add_imm_no_carry : after (regs [(1, 0x80), (15, 0x05)]) 0x7180 (fun t => (t.v[1], t.v[15])) =
    some (0x00, 0x05) := by decide
theorem test_ld_reg_vf : after (regs [(1, 0x12)]) 0x8F10 (fun t => t.v[15]) = some 0x12 := by decide
theorem test_or_keeps_vf : after (regs [(1, 0xAA), (2, 0x55), (15, 0x09)]) 0x8121 (fun t => (t.v[1], t.v[15])) =
    some (0xFF, 0x09) := by decide
theorem test_and : after (regs [(1, 0xF0), (2, 0x3C)]) 0x8122 (fun t => t.v[1]) = some 0x30 := by decide
theorem test_xor : after (regs [(1, 0xF0), (2, 0x3C)]) 0x8123 (fun t => t.v[1]) = some 0xCC := by decide
theorem test_add_reg_same : after (regs [(3, 0xC1)]) 0x8334 (fun t => (t.v[3], t.v[15])) = some (0x82, 0x01) := by
  decide
theorem test_add_reg_vf_destination : after (regs [(15, 0x02), (1, 0x03)]) 0x8F14 (fun t => t.v[15]) = some 0x00 := by
  decide
theorem test_sub_equal : after (regs [(1, 0x07), (2, 0x07)]) 0x8125 (fun t => (t.v[1], t.v[15])) =
    some (0x00, 0x01) := by decide
theorem test_sub_borrow : after (regs [(1, 90), (3, 100)]) 0x8135 (fun t => (t.v[1], t.v[15])) = some (246, 0) := by
  decide
theorem test_shr_ignores_vy : after (regs [(1, 0xFF), (2, 0x33)]) 0x8126 (fun t => (t.v[1], t.v[2], t.v[15])) =
    some (0x7F, 0x33, 0x01) := by decide
theorem test_shr_vf_destination : after (regs [(15, 0x06)]) 0x8F06 (fun t => t.v[15]) = some 0x00 := by decide
theorem test_subn : after (regs [(1, 0x0A), (2, 0x64)]) 0x8127 (fun t => (t.v[1], t.v[15])) = some (0x5A, 0x01) := by
  decide
theorem test_subn_borrow : after (regs [(1, 0x06), (2, 0x05)]) 0x8127 (fun t => (t.v[1], t.v[15])) =
    some (0xFF, 0x00) := by decide
theorem test_shl : after (regs [(1, 0xC0), (2, 0x33)]) 0x812E (fun t => (t.v[1], t.v[2], t.v[15])) =
    some (0x80, 0x33, 0x01) := by decide
theorem test_shl_vf_destination : after (regs [(15, 0x81)]) 0x8F0E (fun t => t.v[15]) = some 0x01 := by decide
theorem test_table_order_shifts :
    ((writeAlu .tableOrder .shr 15 (alu .shr 0x06 0) State.reset).v[15],
      (writeAlu .tableOrder .shl 15 (alu .shl 0x81 0) State.reset).v[15]) = (0x03, 0x02) := by decide
theorem test_rnd_masked_out : after State.reset 0xC300 (fun t => (t.pc, t.draws)) = some (0x202, 1) := by decide
theorem test_rnd_value : after State.reset 0xC30F (fun t => t.v[3]) = some (Config.randByte 0 &&& 0x0F) := rfl

/-! ## Index and memory (95_test_vectors.md 2.5) -/

theorem test_ld_i : after State.reset 0xAFFF (·.i) = some 0x0FFF := by decide
theorem test_add_i_wraps : after { (regs [(0, 0x02)]) with i := 0xFFFF } 0xF01E (·.i) = some 0x0001 := by decide
theorem test_add_i_no_flag : after { (regs [(0, 0x01)]) with i := 0x0FFF } 0xF01E (fun t => (t.i, t.v[15])) =
    some (0x1000, 0x00) := by decide
theorem test_ld_f_no_mask : after (regs [(0, 0xFF)]) 0xF029 (·.i) = some 0x04FB := by decide
theorem test_bcd : after { (regs [(2, 234)]) with i := 0x300 } 0xF233 (fun t => (t.mem.bytesAt 0x300 4, t.i)) =
    some ([2, 3, 4, 0], 0x300) := by decide
theorem test_bcd_out_of_bounds : failure { (regs [(0, 199)]) with i := 0xFFE } 0xF033 =
    some (.memoryOutOfBounds 0x1000) := by decide
theorem test_st_regs : after { (regs [(0, 1), (1, 2), (2, 3), (3, 4)]) with
      i := 0x300, mem := [(0x303, 0xEE)] } 0xF255 (fun t => (t.mem.bytesAt 0x300 4, t.i)) =
    some ([1, 2, 3, 0xEE], 0x300) := by decide
theorem test_st_regs_last_byte : after { (regs [(0, 0x77)]) with i := 0xFFF } 0xF055 (fun t => t.mem.byteAt 0xFFF) =
    some 0x77 := by decide
theorem test_ld_regs_font : after { (regs [(5, 0xCC)]) with i := 0x000 } 0xF465 (fun t => t.v.toList.take 6) =
    some [0xF0, 0x90, 0x90, 0x90, 0xF0, 0xCC] := by decide
theorem test_ld_regs_out_of_bounds : failure { State.reset with i := 0x1000 } 0xF065 =
    some (.memoryOutOfBounds 0x1000) := by decide

/-! ## Display (95_test_vectors.md 2.6, S16) -/

theorem test_drw_corner : after { (regs [(1, 255), (2, 255)]) with i := 0x300, mem := [(0x300, 0xFF)] } 0xD121
    (fun t => (t.px[31], t.px[0], t.v[15])) = some (0x800000000000007F, 0, 0) := by decide
theorem test_drw_vf_coordinate : after { (regs [(15, 2)]) with i := 0x300, mem := [(0x300, 0x80)] } 0xDF11
    (fun t => (t.px[0], t.v[15])) = some (0x4, 0) := by decide
theorem test_draw_collision_pixels : (draw (clearDisplay.setPixel 0 true) 0 0 [0xC0]).1[0] = 0x2 := by decide
theorem test_draw_collision : (draw (clearDisplay.setPixel 0 true) 0 0 [0xC0]).2 = true := by decide
theorem test_draw_no_collision : (draw (clearDisplay.setPixel 0 true) 0 0 [0x40]).2 = false := by decide
theorem test_drw_glyph_zero_first_rows : after State.reset 0xD012 (fun t => (t.px[0], t.px[1])) = some (0xF, 0x9) := by decide
theorem test_drw_empty_out_of_bounds : after { (regs [(15, 7)]) with i := 0xFFFF } 0xD120 (fun t => (t.px, t.v[15])) =
    some (clearDisplay, 0) := by decide
theorem test_drw_out_of_bounds : failure { State.reset with i := 0xFFE } 0xD123 = some (.memoryOutOfBounds 0x1000) := by
  decide
theorem test_cls : after { (regs [(15, 9)]) with px := clearDisplay.setPixel 2047 true } 0x00E0
    (fun t => (t.px, t.v[15])) = some (clearDisplay, 9) := by decide

/-! ## Keypad and timers (95_test_vectors.md 2.7) -/

/-- A state like reset with some keys down. -/
def keys (ks : List (Fin 16)) : State := ks.foldl (fun s k => s.setKey k true) State.reset

theorem test_skp : after ((keys [11]).setV 3 0x0B) 0xE39E (·.pc) = some 0x204 := by decide
theorem test_skp_invalid : failure (regs [(3, 0x10)]) 0xE39E = some (.invalidKeyIndex 0x10) := by decide
theorem test_sknp : after (regs [(3, 0x0B)]) 0xE3A1 (·.pc) = some 0x204 := by decide
theorem test_sknp_down : after ((keys [11]).setV 3 0x0B) 0xE3A1 (·.pc) = some 0x202 := by decide
theorem test_ld_vx_k_waits : after State.reset 0xF30A (fun t => (t.pc, t.v)) = some (0x200, State.reset.v) := by decide
theorem test_ld_vx_k_highest : after (keys [7, 11]) 0xF30A (fun t => (t.pc, t.v[3])) = some (0x202, 0x0B) := by decide
theorem test_ld_vx_dt : after { State.reset with dt := 0x0A } 0xF407 (fun t => (t.v[4], t.dt)) = some (0x0A, 0x0A) := by
  decide
theorem test_ld_dt_vx : after (regs [(3, 0xFF)]) 0xF315 (·.dt) = some 0xFF := by decide
theorem test_ld_st_vx : after (regs [(3, 0x01)]) 0xF318 (fun t => (t.st, isSoundPlaying t)) = some (0x01, true) := by
  decide

/-! ## Host commands, reset, fetch (95_test_vectors.md 2.1, 2.7, 2.8) -/

theorem test_tick : (decrementTimers { State.reset with dt := 0xFF, st := 1 }).dt = 0xFE := by decide
theorem test_tick_saturates : decrementTimers State.reset = State.reset := by decide
theorem test_key_up_invalid : resultCode (.keyUp 16) State.reset = 4 := by decide
theorem test_key_down : (stateAfter (.keyDown 15) State.reset).key[15] = true := by decide
theorem test_load_rom : (stateAfter (.loadRom [0x12, 0x00]) State.reset).mem = [(0x200, 0x12)] := by decide
theorem test_load_rom_keeps_tail :
    (stateAfter (.loadRom [0xAA]) { State.reset with mem := [(0x201, 0x02)] }).mem = [(0x200, 0xAA), (0x201, 0x02)] := by
  decide
theorem test_reset_clears : stateAfter .reset { State.reset with mem := [(0x200, 1)], dt := 9, pc := 0x300 } =
    State.reset := by decide
theorem test_fetch_big_endian : fetch [(0x200, 0x12), (0x201, 0x34)] 0x200 = .ok 0x1234 := by decide
theorem test_fetch_out_of_bounds : fetch [] 0xFFF = .error (.memoryOutOfBounds 0x1000) := by decide
theorem test_pending_command_first : (match step { State.reset with pending := [.keyDown 3, .cycle] } with
    | .next t => some (t.key[3], t.pending, t.pc)
    | .fault _ => none
    | .refused _ => none) = some (true, [.cycle], 0x200) := by decide
theorem test_state_left_after_overflow : (stepLeft { State.reset with mem := [(0x200, 0x22)], sp := 16 }).pc = 0x202 := by
  decide
theorem test_signals : [commandOfSignals 1 0 0 [], commandOfSignals 3 5 0 [], commandOfSignals 6 0 0 []] =
    [some .cycle, some (.keyDown 5), none] := by decide

/-! ## Witnesses: a concrete case that meets the hypotheses of each statement, one for each clause -/

theorem witness_decodeOfEncode : [Instr.sys 0x0E1, .unknown 0x5AB1, .drw 15 15 15].map Instr.wf = [true, true, true] := by
  decide
theorem witness_unknownWords : isUnknownWord 0x5AB1 = true ∧ decode 0x5AB1 = .unknown 0x5AB1 ∧
    decode 0x00E1 = .sys 0x0E1 := by decide
/-- A state at the last address from which a fetch is possible, with a store of registers there. -/
def atEnd : State := { State.reset with pc := 0xFFE, mem := [(0xFFE, 0xF1), (0xFFF, 0x55)] }
theorem witness_stepRuns_noCommand : atEnd.pending = [] ∧ atEnd.pc.toNat ≤ 0xFFE ∧
    decodeBytes [atEnd.mem.byteAt atEnd.pc.toNat, atEnd.mem.byteAt (atEnd.pc.toNat + 1)] = .ok (.stRegs 1, []) := by
  decide
theorem witness_stepRuns_cycle : ({ atEnd with pending := [.cycle, .reset] } : State).pending = .cycle :: [.reset] := by
  decide
theorem witness_stepRuns_other : ({ atEnd with pending := [.keyDown 3] } : State).pending = .keyDown 3 :: [] := by
  decide
theorem witness_fetch_bounds : (0xFFE : Word).toNat ≤ 0xFFE ∧ 0xFFE < (0xFFF : Word).toNat := by decide
theorem witness_placedWord : Memory.wf atEnd.mem ∧ atEnd.pc.toNat ≤ 0xFFE := by decide
theorem witness_pcAfter : atEnd.pending = [] ∧ ∃ t, step atEnd = .next t := ⟨rfl, _, rfl⟩
theorem witness_storeIsSeen : Memory.wf State.reset.mem ∧ (0xFFE : Word).toNat ≤ 0xFFE ∧
    (∃ t, exec (.stRegs 0) { State.reset with i := 0xFFF } = .next t) ∧
    (∃ t, exec (.bcd 3) { State.reset with i := 0xFFD } = .next t) := ⟨by decide, by decide, ⟨_, rfl⟩, ⟨_, rfl⟩⟩
theorem witness_noOps : (0x0E1 : Addr12) ≠ 0x0E0 ∧ (0x0E1 : Addr12) ≠ 0x0EE ∧ isUnknownWord 0x5AB1 = true := by decide
theorem witness_noOps_zeroedMemory : State.reset.pending = [] ∧ State.reset.pc.toNat ≤ 0xFFE ∧
    State.reset.mem.byteAt State.reset.pc.toNat = 0 ∧ State.reset.mem.byteAt (State.reset.pc.toNat + 1) = 0 ∧
    ({ State.reset with pc := 0x1000 } : State).pc = 0x1000 := by decide
theorem witness_jp_selfLoop : fetch [(0x200, 0x12)] State.reset.pc = .ok (BitVec.ofNat 16 (0x1000 + 0x200)) ∧
    State.reset.pending = [] ∧ State.reset.pc.toNat ≤ 0xFFE := by decide
theorem witness_call_push : ({ State.reset with sp := 15 } : State).sp.val < 16 ∧
    ({ State.reset with sp := 16 } : State).sp = 16 := by decide
theorem witness_ret_pop : 0 < ({ State.reset with sp := 1 } : State).sp.val ∧
    ({ State.reset with sp := 1 } : State).sp.val = (0 : Fin 16).val + 1 ∧ State.reset.sp = 0 := by decide
theorem witness_retUndoesCall : ∃ t, exec (.call 0x300) { State.reset with sp := 15 } = .next t := ⟨_, rfl⟩
theorem witness_jpV0_outside : 0xFFE < (0xFFF : Addr12).toNat + State.reset.v[0].toNat := by decide
theorem witness_registerSkips : (1 : Fin 16) ≠ 0 ∧ (0x5AB1 : Word) = BitVec.ofNat 16 (0x5000 + 0x100 * 10 + 0x10 * 11 + 1) :=
  by decide
theorem witness_aluTable : (alu .xor 1 2).flagWe = false ∧ (alu .shl 1 2).flagWe = true ∧ (14 : Reg) ≠ 15 := by decide
theorem witness_rnd_masked : (0x0F : Byte).getLsbD 4 = false := by decide
theorem witness_bcd_bounds : Memory.wf State.reset.mem ∧ baseAddress { State.reset with i := 0xFFD } + 2 ≤ 4095 ∧
    4095 < baseAddress { State.reset with i := 0xFFE } + 2 := by decide
theorem witness_stRegs_ldRegs_bounds : Memory.wf State.reset.mem ∧
    baseAddress { State.reset with i := 0xFF0 } + (15 : Reg).val ≤ 4095 ∧
    4095 < baseAddress { State.reset with i := 0xFF1 } + (15 : Reg).val := by decide
theorem witness_ldRegsAfterStRegs : ∃ t, exec (.stRegs 15) { State.reset with i := 0xFF0 } = .next t := ⟨_, rfl⟩
theorem witness_draw_length : (List.replicate 15 (0xFF : Byte)).length ≤ 15 ∧ glyphZero.length = 5 := by decide
theorem witness_drw_bounds : (0 : Fin 16).val = 0 ∧
    baseAddress { State.reset with i := 0xFFF } + (1 : Fin 16).val - 1 ≤ 4095 ∧ 1 ≤ (2 : Fin 16).val ∧
    4095 < baseAddress { State.reset with i := 0xFFF } + (2 : Fin 16).val - 1 := by decide
theorem witness_keySkips : (regs [(3, 15)]).v[3].toNat = (15 : Fin 16).val ∧ 15 < (regs [(3, 16)]).v[3].toNat := by
  decide
theorem witness_ldVxK : (∀ k : Fin 16, State.reset.key[k] = false) ∧ (keys [3, 15]).key[15] = true ∧
    (∀ j : Fin 16, 15 < j → (keys [3, 15]).key[j] = false) ∧ (keys [0]).key[0] = true ∧
    (∀ j : Fin 16, 0 < j → (keys [0]).key[j] = false) := by decide
theorem witness_ldVxK_idle : fetch [(0x200, 0xF3), (0x201, 0x0A)] State.reset.pc =
    .ok (BitVec.ofNat 16 (0xF00A + 0x100 * (3 : Reg).val)) ∧ State.reset.pending = [] := by decide
theorem witness_soundTimerUnread : (∃ t, exec (.ldVxDt 3) State.reset = .next t) ∧
    (∃ t, exec (.ldStVx 3) State.reset = .next t) ∧ exec .ret State.reset = .fault .stackUnderflow :=
  ⟨⟨_, rfl⟩, ⟨_, rfl⟩, rfl⟩
theorem witness_loadRom : Memory.wf State.reset.mem ∧ (List.replicate 0xE00 (1 : Byte)).length ≤ 0xE00 ∧
    0xE00 < (List.replicate 0xE01 (1 : Byte)).length :=
  ⟨by decide, Nat.le_of_eq List.length_replicate, by rw [List.length_replicate]; decide⟩
theorem witness_observers : fetch State.reset.mem State.reset.pc = .ok 0x0000 := by decide
theorem witness_failures : Safety.FailsWith .ret State.reset .stackUnderflow ∧
    ∀ f, ¬ Safety.FailsWith (.sys 0) State.reset f := ⟨⟨rfl, rfl⟩, fun _ h => h⟩
theorem witness_failedStep_fetch : step { State.reset with pc := 0xFFF } = .fault (.memoryOutOfBounds 0x1000) := rfl
theorem witness_failedStep_execute : step { State.reset with mem := [(0x201, 0xEE)] } = .fault .stackUnderflow := rfl
theorem witness_frames_register : (∃ t, exec (.sub 1 2) State.reset = .next t) ∧ ¬ Claims.writesV (.sub 1 2) 3 ∧
    Claims.writesFlag (.sub 1 2) := ⟨⟨_, rfl⟩, by simp [Claims.writesV], trivial⟩
theorem witness_frames_stack : ∃ t, exec .ret { State.reset with sp := 16 } = .next t := ⟨_, rfl⟩
theorem witness_frames_memory : ∃ t, exec (.ldRegs 15) { State.reset with i := 0xFF0 } = .next t := ⟨_, rfl⟩
/-- A state at the edges of the invariant: it meets it, and a step from it completes. -/
def atEdges : State :=
  { State.reset with
    pc := 0x10FE, stack := State.reset.stack.set 15 0x1000, mem := [(0xFFF, 0x01)], pending := [.decrementTimers] }
theorem witness_invariant : Safety.Inv atEdges ∧ ∃ t, step atEdges = .next t :=
  ⟨⟨by decide, by decide, by decide⟩, _, rfl⟩

end Sys2Proof.Tests
end

section
/-! PROOFS. The state (10_state.md): what an instruction that completes can change, and with that the statements on the
registers, the flag, the timers, the display, memory, the index, the stack and PC; the sound timer that no instruction
reads; the reset state. -/

namespace Sys2Proof.Machine

/-! ## What an instruction that completes can change (10_state.md R10 to R20) -/

/-- The instructions that give PC a value of their own: jumps, skips, and the polling LD_VX_K (10_state.md R15). -/
def movesPc : Instr → Prop
  | .jp _ | .jpV0 _ | .call _ | .ret | .seImm _ _ | .sneImm _ _ | .seReg _ _ | .sneReg _ _ | .skp _ | .sknp _
  | .ldVxK _ => True
  | _ => False

/-- The changes that an instruction may make to `s` when it completes: a constructor names the fields it may change and
the instructions that may change them (any may leave all as it is); every other field is as in `s`. What the new values
are is left open, but for the registers outside R12. `exec_effect` ties it to `exec`. -/
inductive Effect (s : State) : Instr → State → Prop
  | idle (i : Instr) : Effect s i s
  | jump (i : Instr) (p : Word) (hi : movesPc i) : Effect s i { s with pc := p }
  | call (nnn : Addr12) (p : Word) (slots : Vector Word 16) (n : Fin 17) :
      Effect s (.call nnn) { s with pc := p, stack := slots, sp := n }
  | ret (p : Word) (n : Fin 17) : Effect s .ret { s with pc := p, sp := n }
  | registers (i : Instr) (w : Vector Byte 16) (hw : ∀ k : Reg, ¬ Claims.writesV i k → w[k] = s.v[k]) :
      Effect s i { s with v := w }
  | random (x : Reg) (kk : Byte) (w : Vector Byte 16) (n : Nat)
      (hw : ∀ k : Reg, ¬ Claims.writesV (.rnd x kk) k → w[k] = s.v[k]) :
      Effect s (.rnd x kk) { s with v := w, draws := n }
  | sprite (x y : Reg) (n : Fin 16) (d : Display) (w : Vector Byte 16)
      (hw : ∀ k : Reg, ¬ Claims.writesV (.drw x y n) k → w[k] = s.v[k]) :
      Effect s (.drw x y n) { s with px := d, v := w }
  | clear (d : Display) : Effect s .cls { s with px := d }
  | index (i : Instr) (w : Word) (hi : (∃ nnn, i = .ldI nnn) ∨ (∃ x, i = .addI x) ∨ ∃ x, i = .ldF x) :
      Effect s i { s with i := w }
  | store (i : Instr) (m : Memory) (hi : (∃ x, i = .bcd x) ∨ ∃ x, i = .stRegs x) : Effect s i { s with mem := m }
  | delay (x : Reg) (b : Byte) : Effect s (.ldDtVx x) { s with dt := b }
  | sound (x : Reg) (b : Byte) : Effect s (.ldStVx x) { s with st := b }

/-- A register other than the one written keeps its value. -/
theorem getElem_set_of_ne (v : Vector Byte 16) {x k : Reg} (b : Byte) (h : k ≠ x) : (v.set x b)[k] = v[k] :=
  Vector.getElem_set_ne _ _ fun e => h (Fin.ext e.symm)

theorem ne_of_not_writesV {i : Instr} {x k : Reg} (hx : Claims.writesV i x) (hk : ¬ Claims.writesV i k) : k ≠ x := by
  rintro rfl
  exact hk hx

theorem Effect.setV {s : State} {i : Instr} {x : Reg} (b : Byte) (hx : Claims.writesV i x) :
    Effect s i (s.setV x b) :=
  .registers i _ fun _ hk => getElem_set_of_ne _ _ (ne_of_not_writesV hx hk)

/-- An ALU instruction may write its destination, and VF where the ALU's flag write is enabled (42_load_alu.md R122). -/
theorem Effect.aluStep {s : State} {i : Instr} {fn : AluFn} {x : Reg} {b : Byte} (hx : Claims.writesV i x)
    (hf : (alu fn s.v[x] b).flagWe = true → Claims.writesV i vf) : Effect s i (aluStep fn x b s) := by
  rw [aluStep_eq]
  split
  case isTrue hwe =>
    refine .registers i _ fun k hk => ?_
    rw [getElem_set_of_ne _ _ (ne_of_not_writesV (hf hwe) hk), State.setV_v,
      getElem_set_of_ne _ _ (ne_of_not_writesV hx hk)]
  case isFalse => exact .setV _ hx

theorem Effect.skipIf {s : State} {i : Instr} (c : Bool) (hi : movesPc i) : Effect s i (s.skipIf c) := by
  cases c with
  | true => exact .jump i _ hi
  | false => exact .idle i

/-- LD_REGS reaches no register above its operand (43_index_memory.md R135). -/
theorem Effect.ldRegs {s : State} {x : Reg} {bytes : List Byte} (hb : bytes.length = x.val + 1) :
    Effect s (.ldRegs x) { s with v := setRegs s.v 0 bytes } := by
  refine .registers _ _ fun k hk => ?_
  have hxk : x.val < k.val := not_le.mp hk
  rw [Fin.getElem_fin, getElem_setRegs _ _ _ _ k.isLt, if_neg (by omega)]
  rfl

theorem length_of_memRead {m : Memory} {a n : Nat} {bytes : List Byte} (h : memRead m a n = .ok bytes) :
    bytes.length = n := by
  rcases memRead_cases m a n with ⟨h0, he⟩ | ⟨_, _, he⟩ | ⟨_, _, he⟩
  · cases he.symm.trans h
    exact h0.symm
  · cases he.symm.trans h
  · cases he.symm.trans h
    exact Memory.length_bytesAt m a n

/-- LD_VX_K while no key is down (45_keypad_timers.md R152). -/
theorem exec_ldVxK_of_none (x : Reg) {s : State} (h : scanKeys s = none) :
    exec (.ldVxK x) s = .next (s.setPc (s.pc - 2)) := by
  simp [exec, execLdVxK, h]

/-- LD_VX_K with a key down (45_keypad_timers.md R152). -/
theorem exec_ldVxK_of_some (x : Reg) {s : State} {k : Fin 16} (h : scanKeys s = some k) :
    exec (.ldVxK x) s = .next (s.setV x (BitVec.ofNat 8 k.val)) := by
  simp [exec, execLdVxK, h]

/-- An instruction that completes makes no other change to the state than one of `Effect`. -/
theorem exec_effect {i : Instr} {s t : State} (h : exec i s = .next t) : Effect s i t := by
  cases i with
  | cls => cases h; exact .clear _
  | ret =>
    obtain ⟨_, hp, hgo⟩ := orRaise_next.mp h
    rcases pop_cases s with ⟨_, he⟩ | ⟨_, _, he⟩
    · cases he.symm.trans hp
    · cases he.symm.trans hp
      cases hgo
      exact .ret _ _
  | call nnn =>
    obtain ⟨_, hp, hgo⟩ := orRaise_next.mp h
    rcases push_cases s s.pc with ⟨_, he⟩ | ⟨_, he⟩
    · cases he.symm.trans hp
    · cases he.symm.trans hp
      cases hgo
      exact .call _ _ _ _
  | sys nnn | unknown op => cases h; exact .idle _
  | jp nnn | jpV0 nnn => cases h; exact .jump _ _ trivial
  | seImm x y | sneImm x y | seReg x y | sneReg x y => cases h; exact .skipIf _ trivial
  | skp x | sknp x =>
    obtain ⟨_, _, hgo⟩ := orRaise_next.mp h
    cases hgo
    exact .skipIf _ trivial
  | ldImm x b | addImm x b | ldReg x b | or x b | and x b | xor x b => cases h; exact .aluStep rfl nofun
  | addReg x y | sub x y | shr x y | subn x y | shl x y =>
    cases h
    exact .aluStep (.inl rfl) fun _ => .inr rfl
  | ldI nnn => cases h; exact .index _ _ (.inl ⟨_, rfl⟩)
  | addI x => cases h; exact .index _ _ (.inr (.inl ⟨_, rfl⟩))
  | ldF x => cases h; exact .index _ _ (.inr (.inr ⟨_, rfl⟩))
  | rnd x kk =>
    cases h
    exact .random _ _ _ _ fun _ hk => getElem_set_of_ne _ _ hk
  | drw x y n =>
    obtain ⟨_, _, hgo⟩ := orRaise_next.mp h
    cases hgo
    exact .sprite _ _ _ _ _ fun _ hk => getElem_set_of_ne _ _ hk
  | ldVxDt x => cases h; exact .setV _ rfl
  | ldVxK x =>
    cases hk : scanKeys s with
    | none => cases (exec_ldVxK_of_none x hk).symm.trans h; exact .jump _ _ trivial
    | some k => cases (exec_ldVxK_of_some x hk).symm.trans h; exact .setV _ rfl
  | ldDtVx x => cases h; exact .delay _ _
  | ldStVx x => cases h; exact .sound _ _
  | bcd x =>
    obtain ⟨_, _, hgo⟩ := orRaise_next.mp h
    cases hgo
    exact .store _ _ (.inl ⟨_, rfl⟩)
  | stRegs x =>
    obtain ⟨_, _, hgo⟩ := orRaise_next.mp h
    cases hgo
    exact .store _ _ (.inr ⟨_, rfl⟩)
  | ldRegs x =>
    obtain ⟨_, hr, hgo⟩ := orRaise_next.mp h
    cases hgo
    exact .ldRegs (length_of_memRead hr)

/-! ## Who writes what -/

/-- Settles O49: the effects that touch a register carry the claim for the registers they leave alone. -/
theorem registersChangeOnlyAtDestinations : Obligations.RegistersChangeOnlyAtDestinations := by
  intro i s t h k hk
  cases exec_effect h with
  | registers _ _ hw | random _ _ _ _ hw | sprite _ _ _ _ _ hw => exact hw k hk
  | _ => rfl

/-- Settles O51: only the effects of LD_DT_VX, LD_ST_VX and RND touch these fields. -/
theorem timersAndKeysAreSafeFromOtherInstructions : Obligations.TimersAndKeysAreSafeFromOtherInstructions := by
  intro i s t h
  cases exec_effect h with
  | delay x => exact ⟨fun hi => absurd rfl (hi x), fun _ => rfl, rfl, rfl, fun _ => rfl⟩
  | sound x => exact ⟨fun _ => rfl, fun hi => absurd rfl (hi x), rfl, rfl, fun _ => rfl⟩
  | random x kk => exact ⟨fun _ => rfl, fun _ => rfl, rfl, rfl, fun hi => absurd rfl (hi x kk)⟩
  | _ => exact ⟨fun _ => rfl, fun _ => rfl, rfl, rfl, fun _ => rfl⟩

/-- Settles O52: only the effects of CLS and DRW touch the display, only a store touches memory. -/
theorem displayAndMemoryWriters : Obligations.DisplayAndMemoryWriters := by
  intro i s t h
  cases exec_effect h with
  | clear => exact ⟨fun hi => absurd rfl hi, fun _ _ => rfl⟩
  | sprite x y n => exact ⟨fun _ hi => absurd rfl (hi x y n), fun _ _ => rfl⟩
  | store _ _ hi =>
    refine ⟨fun _ _ => rfl, fun hbcd hst => ?_⟩
    obtain ⟨x, rfl⟩ | ⟨x, rfl⟩ := hi
    · exact absurd rfl (hbcd x)
    · exact absurd rfl (hst x)
  | _ => exact ⟨fun _ _ => rfl, fun _ _ => rfl⟩

/-- Settles O53: only an index effect touches I, only the effects of CALL and RET touch the stack engine. -/
theorem indexAndStackWriters : Obligations.IndexAndStackWriters := by
  intro i s t h
  cases exec_effect h with
  | index _ _ hi =>
    refine ⟨fun hldI haddI hldF => ?_, fun _ => ⟨rfl, fun _ => rfl⟩⟩
    obtain ⟨nnn, rfl⟩ | ⟨x, rfl⟩ | ⟨x, rfl⟩ := hi
    · exact absurd rfl (hldI nnn)
    · exact absurd rfl (haddI x)
    · exact absurd rfl (hldF x)
  | call nnn => exact ⟨fun _ _ _ => rfl, fun hi => absurd rfl (hi nnn)⟩
  | ret => exact ⟨fun _ _ _ => rfl, fun _ => ⟨rfl, fun hi => absurd rfl hi⟩⟩
  | _ => exact ⟨fun _ _ _ => rfl, fun _ => ⟨rfl, fun _ => rfl⟩⟩

/-! ## The flag (10_state.md R12) -/

theorem flagByte_cases (c : Bool) : flagByte c = 0 ∨ flagByte c = 1 := by
  cases c with
  | true => exact .inr rfl
  | false => exact .inl rfl

theorem setVF_vf (s : State) (b : Byte) : (s.setVF b).v[15] = b := Vector.getElem_set_self _

/-- After an ALU function that writes the flag, VF is the flag, for destination VF as well (42_load_alu.md R123). -/
theorem aluStep_vf {fn : AluFn} {x : Reg} {b : Byte} {s : State} (hf : (alu fn s.v[x] b).flagWe = true) :
    (aluStep fn x b s).v[15] = flagByte (alu fn s.v[x] b).flag := by
  rw [aluStep_eq, if_pos hf, setVF_vf]

/-- Settles O50: VF is the byte of a flag, that of the ALU or the collision of DRW. -/
theorem flagIsZeroOrOne : Obligations.FlagIsZeroOrOne := by
  intro i s t hi h
  cases i with
  | addReg x y | sub x y | shr x y | subn x y | shl x y =>
    cases h
    rw [aluStep_vf rfl]
    exact flagByte_cases _
  | drw x y n =>
    obtain ⟨sprite, _, hgo⟩ := orRaise_next.mp h
    cases hgo
    rw [setVF_vf]
    exact flagByte_cases _
  | _ => exact hi.elim

/-! ## PC after a cycle (10_state.md R15) -/

/-- An instruction that gives PC no value of its own leaves it at the advanced value. -/
theorem exec_keeps_pc {i : Instr} {s t : State} (hi : ¬ movesPc i) (h : exec i s = .next t) : t.pc = s.pc := by
  cases exec_effect h with
  | jump _ _ hm => exact absurd hm hi
  | call | ret => exact absurd trivial hi
  | _ => rfl

theorem addrOperand_eq (nnn : Addr12) : addrOperand nnn = nnn.setWidth 16 := by
  apply BitVec.eq_of_toNat_eq
  simp [addrOperand]

/-- The target of `Bnnn` as a sum of words (40_control_transfer.md R84). -/
theorem addrPlusV0_eq (nnn : Addr12) (s : State) :
    addrPlusV0 nnn s = nnn.setWidth 16 + s.v[0].setWidth 16 := by
  apply BitVec.eq_of_toNat_eq
  simp [addrPlusV0]

/-- A skip on the condition `P`, after the sequencer's advance (41_skips.md R100). -/
theorem skipIf_advance_pc (s : State) {c : Bool} {P : Prop} [Decidable P] (hc : c = true ↔ P) :
    (s.advance.skipIf c).pc = if P then s.pc + 4 else s.pc + 2 := by
  by_cases hP : P
  · rw [if_pos hP, hc.mpr hP]
    exact BitVec.add_assoc s.pc 2 2
  · rw [if_neg hP, Bool.eq_false_iff.mpr fun h => hP (hc.mp h)]
    rfl

/-- The address that RET goes to, where it completes (40_control_transfer.md R87). -/
theorem pop_target {s : State} {p : Word × State} (h : pop s = .ok p) : s.stack[s.sp.val - 1]?.getD 0 = p.1 := by
  rcases pop_cases s with ⟨_, he⟩ | ⟨_, hs, he⟩
  · cases he.symm.trans h
  · cases he.symm.trans h
    rw [Vector.getElem?_eq_getElem hs, Option.getD_some]

/-- The key that SKP and SKNP test, where they complete (45_keypad_timers.md R156). -/
theorem getKey_eq {s : State} {k : Nat} {down : Bool} (h : getKey s k = .ok down) :
    s.key[k]?.getD false = down := by
  rcases getKey_cases s k with ⟨_, he⟩ | ⟨hk, he⟩
  · cases he.symm.trans h
  · cases he.symm.trans h
    simp [hk]

/-- `scan` finds no key exactly when none is down (45_keypad_timers.md R152). -/
theorem scanKeys_eq_none_iff (s : State) : scanKeys s = none ↔ ∀ k : Fin 16, s.key[k] = false := by
  have hall : ∀ k : Fin 16, k ∈ allKeys := by decide
  simp [scanKeys_eq, hall]

/-- PC after an instruction that completes, from the state before the sequencer's advance. -/
theorem exec_pcAfter {i : Instr} {s t : State} (h : exec i s.advance = .next t) : t.pc = Claims.pcAfter i s := by
  cases i with
  | jp nnn => cases h; exact addrOperand_eq nnn
  | jpV0 nnn => cases h; exact addrPlusV0_eq nnn s
  | call nnn =>
    obtain ⟨_, _, hgo⟩ := orRaise_next.mp h
    cases hgo
    exact addrOperand_eq nnn
  | ret =>
    obtain ⟨_, hp, hgo⟩ := orRaise_next.mp h
    cases hgo
    exact (pop_target hp).symm
  | seImm x kk => cases h; exact skipIf_advance_pc s beq_iff_eq
  | sneImm x kk => cases h; exact skipIf_advance_pc s bne_iff_ne
  | seReg x y => cases h; exact skipIf_advance_pc s beq_iff_eq
  | sneReg x y => cases h; exact skipIf_advance_pc s bne_iff_ne
  | skp x =>
    obtain ⟨down, hd, hgo⟩ := orRaise_next.mp h
    cases hgo
    exact skipIf_advance_pc s (by rw [← getKey_eq hd]; rfl)
  | sknp x =>
    obtain ⟨down, hd, hgo⟩ := orRaise_next.mp h
    cases hgo
    exact skipIf_advance_pc s (by rw [Bool.not_eq_true', ← getKey_eq hd]; rfl)
  | ldVxK x =>
    have hnone := scanKeys_eq_none_iff s.advance
    cases hk : scanKeys s.advance with
    | none =>
      cases (exec_ldVxK_of_none x hk).symm.trans h
      exact (BitVec.add_sub_cancel s.pc 2).trans (if_pos (hnone.mp hk)).symm
    | some k =>
      cases (exec_ldVxK_of_some x hk).symm.trans h
      have hdown : ¬ ∀ k : Fin 16, s.key[k] = false := fun hall => by simp [hnone.mpr hall] at hk
      exact (if_neg hdown).symm
  | _ => exact exec_keeps_pc id h

/-- Settles O10: the step is a cycle, and the cycle runs the decoded instruction after the advance. -/
theorem pcAfterEveryInstruction : Obligations.PcAfterEveryInstruction := by
  intro s t hp h
  rw [step_of_pending_nil hp] at h
  obtain ⟨_, op, hf, he⟩ := cycle_next h
  exact ⟨op, hf, exec_pcAfter he⟩

/-! ## The sound timer is not read (45_keypad_timers.md R155) -/

/-- A result with the byte `b` in ST where it is a next state. -/
def withSt (b : Byte) : Result → Result
  | .next t => .next (t.setSt b)
  | .fault f => .fault f
  | .refused r => .refused r

/-- An operation that reads no ST, and goes on alike. -/
theorem orRaise_withSt {α : Type} {b : Byte} {r : Except Fault α} {go go' : α → Result}
    (hgo : ∀ a, go' a = withSt b (go a)) : orRaise r go' = withSt b (orRaise r go) := by
  cases r with
  | ok a => exact hgo a
  | error f => rfl

theorem orRaise_map {α : Type} (f : α → α) (r : Except Fault α) (go : α → Result) :
    orRaise (r.map f) go = orRaise r (fun a => go (f a)) := by
  cases r with
  | ok a => rfl
  | error e => rfl

theorem push_setSt (s : State) (b : Byte) (a : Word) : push (s.setSt b) a = (push s a).map (·.setSt b) := by
  by_cases h : s.sp.val < 16
  · simp [push, h, Except.map, State.setSt]
  · simp [push, h, Except.map]

theorem pop_setSt (s : State) (b : Byte) : pop (s.setSt b) = (pop s).map fun p => (p.1, p.2.setSt b) := by
  by_cases h : s.sp.val = 0
  · simp [pop, h, Except.map]
  · simp [pop, h, Except.map, State.setSt]

theorem skipIf_setSt (s : State) (b : Byte) (c : Bool) : (s.setSt b).skipIf c = (s.skipIf c).setSt b := by
  cases c with
  | true => rfl
  | false => rfl

/-- With another byte in ST, an instruction other than LD_ST_VX ends the same way, but for ST itself. -/
theorem exec_setSt (i : Instr) (s : State) (b : Byte) (hi : ∀ x, i ≠ .ldStVx x) :
    exec i (s.setSt b) = withSt b (exec i s) := by
  cases i with
  | ldStVx x => exact absurd rfl (hi x)
  | ret =>
    change orRaise (pop (s.setSt b)) _ = withSt b (orRaise (pop s) _)
    rw [pop_setSt, orRaise_map]
    exact orRaise_withSt fun _ => rfl
  | call nnn =>
    change orRaise (push (s.setSt b) s.pc) _ = withSt b (orRaise (push s s.pc) _)
    rw [push_setSt, orRaise_map]
    exact orRaise_withSt fun _ => rfl
  | seImm x y | sneImm x y | seReg x y | sneReg x y => exact congrArg _ (skipIf_setSt s b _)
  | skp x | sknp x =>
    change orRaise _ _ = withSt b (orRaise _ _)
    exact orRaise_withSt fun _ => congrArg _ (skipIf_setSt s b _)
  | drw x y n | bcd x | stRegs x | ldRegs x =>
    change orRaise _ _ = withSt b (orRaise _ _)
    exact orRaise_withSt fun _ => rfl
  | ldVxK x =>
    cases hk : scanKeys s with
    | none => rw [exec_ldVxK_of_none x hk]; exact exec_ldVxK_of_none x hk
    | some k => rw [exec_ldVxK_of_some x hk]; exact exec_ldVxK_of_some x hk
  | _ => rfl

/-- Settles O56: LD_ST_VX writes ST and reads a register; every other instruction carries ST along. -/
theorem noInstructionReadsTheSoundTimer : Obligations.NoInstructionReadsTheSoundTimer := by
  intro i s b
  by_cases hi : ∃ x, i = .ldStVx x
  · obtain ⟨x, rfl⟩ := hi
    refine ⟨fun t h => ?_, nofun⟩
    cases h
    exact ⟨_, rfl, fun hne => absurd rfl (hne x), fun _ => rfl⟩
  · have hst : exec i { s with st := b } = withSt b (exec i s) := exec_setSt i s b fun x e => hi ⟨x, e⟩
    constructor
    · intro t h
      rw [h] at hst
      exact ⟨b, hst, fun _ => rfl, fun he => absurd he hi⟩
    · intro f h
      rw [h] at hst
      exact hst

/-! ## Reset (10_state.md R30) -/

theorem clearDisplay_pixel {p : Nat} (hp : p < 2048) : clearDisplay.pixel p = false := by
  have hr : p / 64 < 32 := by omega
  simp [Display.pixel, Display.row, clearDisplay, hr]

/-- The font's bytes, from address 0 (10_state.md R31). -/
theorem resetByte_font {a : Nat} (ha : a < 80) : resetByte a = fontTable.getD a 0 := if_pos ha

theorem resetByte_above_font {a : Nat} (ha : 80 ≤ a) : resetByte a = 0 := if_neg (Nat.not_lt.mpr ha)

/-- Settles O44: memory after reset lists nothing, so that a byte reads its reset content. -/
theorem resetGivesTheTableOfR30 : Obligations.ResetGivesTheTableOfR30 := by
  intro s
  exact ⟨resetCore s, rfl, rfl, rfl, fun _ ha => resetByte_font ha, fun _ ha => resetByte_above_font ha,
    fun _ => Vector.getElem_replicate _, rfl, rfl, fun _ => Vector.getElem_replicate _, rfl, rfl, rfl,
    fun _ hp => clearDisplay_pixel hp, fun _ => Vector.getElem_replicate _, rfl, rfl⟩

/-- Settles O55: the three fields of the invariant at the reset values of 10_state.md R30. -/
theorem resetHasTheInvariant : Obligations.ResetHasTheInvariant where
  memWf := Memory.reset_wf
  stackLow := by decide
  pcLow := by decide

end Sys2Proof.Machine
end

section
/-! PROOFS. Memory (20_memory.md): the fetch as a function of the two bytes at PC, and the bytes that a completed store
leaves, which the next fetch reads. -/

namespace Sys2Proof.Machine

/-! ## The fetch (20_memory.md R42, R43, 30_encoding.md R61) -/

/-- The byte at the lower address is the high one (20_memory.md R42). -/
theorem toNat_wordOfBytes (hi lo : Byte) : (wordOfBytes hi lo).toNat = hi.toNat * 256 + lo.toNat := by
  have hhi := hi.isLt
  have hlo := lo.isLt
  simp only [wordOfBytes, BitVec.toNat_ofNat]
  omega

theorem fetch_of_le (m : Memory) {pc : Word} (h : pc.toNat ≤ 0xFFE) :
    fetch m pc = .ok (wordOfBytes (m.byteAt pc.toNat) (m.byteAt (pc.toNat + 1))) := by
  rcases fetch_cases m pc with ⟨hgt, _⟩ | ⟨_, hok⟩
  · omega
  · exact hok

theorem fetch_of_gt (m : Memory) {pc : Word} (h : 0xFFE < pc.toNat) :
    fetch m pc = .error (.memoryOutOfBounds (pc.toNat + 1)) := by
  rcases fetch_cases m pc with ⟨_, herr⟩ | ⟨hle, _⟩
  · exact herr
  · omega

/-- Settles O8: the word is that of the two bytes at `pc`, the lower address first. -/
theorem fetchIsBigEndianAndBounded : Obligations.FetchIsBigEndianAndBounded := by
  intro m pc
  exact ⟨fun hle => ⟨_, fetch_of_le m hle, toNat_wordOfBytes _ _⟩, fun hgt => fetch_of_gt m hgt⟩

/-! ## What a completed store leaves (20_memory.md R45, R53) -/

/-- Read after a write that MemWrite admits: the byte written where one was, else the byte as it was. -/
theorem byteAt_of_memWrite {m m' : Memory} {a : Nat} {xs : List Byte} (hm : Memory.wf m)
    (h : memWrite m a xs = .ok m') (a' : Nat) :
    m'.byteAt a' = if a ≤ a' ∧ a' < a + xs.length then xs.getD (a' - a) 0 else m.byteAt a' := by
  rcases memWrite_cases m a xs with ⟨_, he⟩ | ⟨hb, he⟩
  · cases he.symm.trans h
  · cases he.symm.trans h
    exact Memory.byteAt_setBytes hm (by omega) a'

/-- Memory after a completed ST_REGS (43_index_memory.md R134). -/
theorem byteAt_of_exec_stRegs {s t : State} {x : Reg} (hm : Memory.wf s.mem) (h : exec (.stRegs x) s = .next t)
    (a : Nat) : t.mem.byteAt a = Claims.afterStRegs x s a := by
  obtain ⟨m, hw, hgo⟩ := orRaise_next.mp h
  cases hgo
  rw [State.setMem_mem, byteAt_of_memWrite hm hw, length_regsUpTo, Claims.afterStRegs]
  by_cases hin : baseAddress s ≤ a ∧ a ≤ baseAddress s + x.val
  · have hk : a - baseAddress s ≤ x.val := by omega
    have h16 : a - baseAddress s < 16 := by omega
    rw [if_pos (by omega), if_pos hin, getD_regsUpTo x s _ hk h16, Vector.getElem?_eq_getElem h16, Option.getD_some]
  · rw [if_neg (by omega), if_neg hin]

theorem length_bcdDigits (b : Byte) : (bcdDigits b).length = 3 := rfl

/-- Memory after a completed BCD: one digit at each of the offsets 0, 1, 2 (43_index_memory.md R133). -/
theorem byteAt_of_exec_bcd {s t : State} {x : Reg} (hm : Memory.wf s.mem) (h : exec (.bcd x) s = .next t) (a : Nat) :
    t.mem.byteAt a = Claims.afterBcd x s a := by
  obtain ⟨m, hw, hgo⟩ := orRaise_next.mp h
  cases hgo
  rw [State.setMem_mem, byteAt_of_memWrite hm hw, length_bcdDigits, Claims.afterBcd]
  by_cases hin : baseAddress s ≤ a ∧ a < baseAddress s + 3
  · rw [if_pos hin]
    obtain rfl | rfl | rfl : a = baseAddress s ∨ a = baseAddress s + 1 ∨ a = baseAddress s + 2 := by omega
    all_goals simp [bcdDigits]
  · rw [if_neg hin, if_neg (by omega), if_neg (by omega), if_neg (by omega)]

/-- Settles O11: the fetch reads two bytes, and each is known after the store. -/
theorem storeIsSeenByTheNextFetch : Obligations.StoreIsSeenByTheNextFetch := by
  intro s t x pc hm hpc
  constructor
  · intro h
    rw [fetch_of_le t.mem hpc, byteAt_of_exec_stRegs hm h, byteAt_of_exec_stRegs hm h]
  · intro h
    rw [fetch_of_le t.mem hpc, byteAt_of_exec_bcd hm h, byteAt_of_exec_bcd hm h]

end Sys2Proof.Machine
end

section
/-! PROOFS. Encoding (30_encoding.md): the decoder and the encoder undo each other, the decoder agrees with the opcode
map of R64, the UNKNOWN words are those of R66, and a step runs the word at PC. -/

namespace Sys2Proof

/-! ## The fields as digits (30_encoding.md R62) -/

theorem toNat_eq_digits (op : Word) :
    op.toNat = (fieldN0 op).toNat * 4096 + (fieldN1 op).toNat * 256 + (fieldN2 op).toNat * 16 + (fieldN3 op).toNat := by
  rw [toNat_fieldN0, toNat_fieldN1, toNat_fieldN2, toNat_fieldN3]
  omega

theorem toNat_fieldNnn_eq_digits (op : Word) :
    (fieldNnn op).toNat = (fieldN1 op).toNat * 256 + (fieldN2 op).toNat * 16 + (fieldN3 op).toNat := by
  rw [toNat_fieldNnn, toNat_fieldN1, toNat_fieldN2, toNat_fieldN3]
  omega

theorem toNat_fieldKk_eq_digits (op : Word) : (fieldKk op).toNat = (fieldN2 op).toNat * 16 + (fieldN3 op).toNat := by
  rw [toNat_fieldKk, toNat_fieldN2, toNat_fieldN3]
  omega

/-- Settles O5: the register fields and `n` are digits by definition. -/
theorem fieldsAreTheDigitsOfTheWord : Obligations.FieldsAreTheDigitsOfTheWord := by
  intro op
  exact ⟨toNat_eq_digits op, toNat_fieldNnn_eq_digits op, toNat_fieldKk_eq_digits op, rfl, rfl, rfl⟩

/-! ## A word built from its own fields (30_encoding.md R63) -/

theorem wordNnn_fieldNnn {op : Word} {c : Nat} (h0 : (fieldN0 op).toNat = c) : wordNnn c (fieldNnn op) = op := by
  subst h0
  apply BitVec.eq_of_toNat_eq
  rw [toNat_wordNnn (fieldN0 op).isLt, toNat_fieldNnn, toNat_fieldN0]
  omega

theorem wordXkk_fieldX {op : Word} {c kk : Nat} (h0 : (fieldN0 op).toNat = c) (hk : (fieldKk op).toNat = kk) :
    wordXkk c (fieldX op) kk = op := by
  subst h0 hk
  apply BitVec.eq_of_toNat_eq
  rw [toNat_wordXkk (fieldN0 op).isLt _ (fieldKk op).isLt, val_fieldX, toNat_fieldKk, toNat_fieldN0]
  omega

theorem wordXyn_fieldX_fieldY {op : Word} {c n : Nat} (h0 : (fieldN0 op).toNat = c) (h3 : (fieldN3 op).toNat = n) :
    wordXyn c (fieldX op) (fieldY op) n = op := by
  subst h0 h3
  apply BitVec.eq_of_toNat_eq
  rw [toNat_wordXyn (fieldN0 op).isLt _ _ (fieldN3 op).isLt, val_fieldX, val_fieldY, toNat_fieldN3, toNat_fieldN0]
  omega

/-! ## Class 0 (30_encoding.md R64 rows 1 to 3) -/

theorem wf_sys_iff (nnn : Addr12) : (Instr.sys nnn).wf = true ↔ nnn ≠ 0x0E0 ∧ nnn ≠ 0x0EE := by
  rw [Instr.wf, Bool.and_eq_true, bne_iff_ne, bne_iff_ne]

theorem wordNnn_ne {c : Nat} (hc : c < 16) {nnn : Addr12} {op : Word} (h : nnn ≠ fieldNnn op) :
    wordNnn c nnn ≠ op := by
  rintro rfl
  exact h (fieldNnn_wordNnn hc nnn).symm

theorem decode_of_class0 {op : Word} (h0 : (fieldN0 op).toNat = 0x0) : decode op = decodeClass0 op := by
  simp [decode, h0]

/-- A word of class 0 is SYS unless it is the word of CLS or of RET. -/
theorem decode_eq_sys {op : Word} (h0 : (fieldN0 op).toNat = 0x0) (hcls : op ≠ 0x00E0) (hret : op ≠ 0x00EE) :
    decode op = .sys (fieldNnn op) := by
  rw [decode_of_class0 h0, decodeClass0, if_neg hcls, if_neg hret]

/-! ## UNKNOWN words (30_encoding.md R66) -/

/-- R66's condition, class by class: the digit or byte that selects within the class selects no row of R64. -/
inductive InUnknownClass (op : Word) : Prop
  | class5 (h0 : (fieldN0 op).toNat = 0x5) (h : (fieldN3 op).toNat ∉ [0])
  | class8 (h0 : (fieldN0 op).toNat = 0x8) (h : (fieldN3 op).toNat ∉ [0, 1, 2, 3, 4, 5, 6, 7, 0xE])
  | class9 (h0 : (fieldN0 op).toNat = 0x9) (h : (fieldN3 op).toNat ∉ [0])
  | classE (h0 : (fieldN0 op).toNat = 0xE) (h : (fieldKk op).toNat ∉ [0x9E, 0xA1])
  | classF (h0 : (fieldN0 op).toNat = 0xF)
      (h : (fieldKk op).toNat ∉ [0x07, 0x0A, 0x15, 0x18, 0x1E, 0x29, 0x33, 0x55, 0x65])

/-- R66 lists the last digits of class 8 that are UNKNOWN; the others are those of R64's rows. -/
theorem isUnknownWord_iff (op : Word) : isUnknownWord op = true ↔ InUnknownClass op := by
  have h3 := (fieldN3 op).isLt
  rw [isUnknownWord, ← fieldN0, ← fieldN3, ← fieldKk]
  constructor
  · intro h
    split_ifs at h with h5 h8 h9 hE hF
    · exact .class5 h5 (by simpa using h)
    · exact .class8 h8 (by simp at h ⊢; omega)
    · exact .class9 h9 (by simpa using h)
    · exact .classE hE (by simpa using h)
    · exact .classF hF (by simpa using h)
  · rintro (⟨h0, h⟩ | ⟨h0, h⟩ | ⟨h0, h⟩ | ⟨h0, h⟩ | ⟨h0, h⟩)
    case class8 =>
      simp [h0] at h ⊢
      omega
    all_goals simpa [h0] using h

/-- A word of R66 falls through every selection of the decoder. -/
theorem InUnknownClass.decode_eq {op : Word} (h : InUnknownClass op) : decode op = .unknown op := by
  cases h with
  | class5 h0 h | class8 h0 h | class9 h0 h | classE h0 h | classF h0 h =>
    simp only [List.mem_cons, List.not_mem_nil, or_false, not_or] at h
    simp [decode, decodeClass8, decodeClassE, decodeClassF, h0, h]

/-! ## Decoding an encoded instruction (30_encoding.md R62 to R64) -/

theorem decode_encode {i : Instr} (hi : i.wf = true) : decode (encode i) = i := by
  cases i with
  | cls | ret => rfl
  | sys nnn =>
    obtain ⟨hcls, hret⟩ := (wf_sys_iff nnn).mp hi
    have hc : 0 < 16 := by decide
    change decode (wordNnn 0 nnn) = _
    rw [decode_eq_sys (toNat_fieldN0_wordNnn hc nnn) (wordNnn_ne hc hcls) (wordNnn_ne hc hret), fieldNnn_wordNnn hc]
  | jp nnn | call nnn | ldI nnn | jpV0 nnn => simp [encode, decode, toNat_fieldN0_wordNnn, fieldNnn_wordNnn]
  | seImm x kk | sneImm x kk | ldImm x kk | addImm x kk | rnd x kk =>
    simp [encode, decode, toNat_fieldN0_wordXkk, fieldX_wordXkk, fieldKk_wordXkk, kk.isLt]
  | seReg x y | sneReg x y =>
    simp [encode, decode, toNat_fieldN0_wordXyn, toNat_fieldN3_wordXyn, fieldX_wordXyn, fieldY_wordXyn]
  | drw x y n => simp [encode, decode, toNat_fieldN0_wordXyn, fieldX_wordXyn, fieldY_wordXyn, fieldN_wordXyn]
  | ldReg x y | or x y | and x y | xor x y | addReg x y | sub x y | shr x y | subn x y | shl x y =>
    simp [encode, decode, decodeClass8, toNat_fieldN0_wordXyn, toNat_fieldN3_wordXyn, fieldX_wordXyn, fieldY_wordXyn]
  | skp x | sknp x =>
    simp [encode, decode, decodeClassE, toNat_fieldN0_wordXkk, toNat_fieldKk_wordXkk, fieldX_wordXkk]
  | ldVxDt x | ldVxK x | ldDtVx x | ldStVx x | addI x | ldF x | bcd x | stRegs x | ldRegs x =>
    simp [encode, decode, decodeClassF, toNat_fieldN0_wordXkk, toNat_fieldKk_wordXkk, fieldX_wordXkk]
  | unknown op => exact ((isUnknownWord_iff op).mp hi).decode_eq

/-- Settles O1, by the formats of R63: the decoder reads back each field that the encoder laid down. -/
theorem decodeOfEncode : Obligations.DecodeOfEncode := fun _ hi => decode_encode hi

/-! ## Encoding a decoded word (30_encoding.md R64, R67, R70) -/

/-- The instruction is well formed and `op` is its word. -/
def StandsFor (i : Instr) (op : Word) : Prop := i.wf = true ∧ encode i = op

theorem InUnknownClass.standsFor {op : Word} (h : InUnknownClass op) : StandsFor (.unknown op) op :=
  ⟨(isUnknownWord_iff op).mpr h, rfl⟩

theorem decodeClass0_standsFor {op : Word} (h0 : (fieldN0 op).toNat = 0x0) : StandsFor (decodeClass0 op) op := by
  unfold decodeClass0
  split_ifs with hcls hret
  · exact ⟨rfl, hcls.symm⟩
  · exact ⟨rfl, hret.symm⟩
  · have hop : wordNnn 0 (fieldNnn op) = op := wordNnn_fieldNnn h0
    refine ⟨(wf_sys_iff _).mpr ⟨fun e => hcls ?_, fun e => hret ?_⟩, hop⟩
    · rw [← hop, e]
      rfl
    · rw [← hop, e]
      rfl

theorem decodeClass8_standsFor {op : Word} (h0 : (fieldN0 op).toNat = 0x8) : StandsFor (decodeClass8 op) op := by
  unfold decodeClass8
  split
  case h_10 =>
    refine (InUnknownClass.class8 h0 ?_).standsFor
    simp only [List.mem_cons, List.not_mem_nil, or_false]
    tauto
  all_goals next h3 => exact ⟨rfl, wordXyn_fieldX_fieldY h0 h3⟩

theorem decodeClassE_standsFor {op : Word} (h0 : (fieldN0 op).toNat = 0xE) : StandsFor (decodeClassE op) op := by
  unfold decodeClassE
  split
  case h_3 =>
    refine (InUnknownClass.classE h0 ?_).standsFor
    simp only [List.mem_cons, List.not_mem_nil, or_false]
    tauto
  all_goals next hk => exact ⟨rfl, wordXkk_fieldX h0 hk⟩

theorem decodeClassF_standsFor {op : Word} (h0 : (fieldN0 op).toNat = 0xF) : StandsFor (decodeClassF op) op := by
  unfold decodeClassF
  split
  case h_10 =>
    refine (InUnknownClass.classF h0 ?_).standsFor
    simp only [List.mem_cons, List.not_mem_nil, or_false]
    tauto
  all_goals next hk => exact ⟨rfl, wordXkk_fieldX h0 hk⟩

/-- The decoder's switch on the first digit, case by case; the last case is no digit. -/
theorem decode_standsFor (op : Word) : StandsFor (decode op) op := by
  have hlt := (fieldN0 op).isLt
  unfold decode
  split
  case h_1 h0 => exact decodeClass0_standsFor h0
  case h_2 h0 | h_3 h0 | h_11 h0 | h_12 h0 => exact ⟨rfl, wordNnn_fieldNnn h0⟩
  case h_4 h0 | h_5 h0 | h_7 h0 | h_8 h0 | h_13 h0 => exact ⟨rfl, wordXkk_fieldX h0 rfl⟩
  case h_6 h0 =>
    split_ifs with h3
    · exact ⟨rfl, wordXyn_fieldX_fieldY h0 h3⟩
    · exact (InUnknownClass.class5 h0 (by simpa using h3)).standsFor
  case h_9 h0 => exact decodeClass8_standsFor h0
  case h_10 h0 =>
    split_ifs with h3
    · exact ⟨rfl, wordXyn_fieldX_fieldY h0 h3⟩
    · exact (InUnknownClass.class9 h0 (by simpa using h3)).standsFor
  case h_14 h0 => exact ⟨rfl, wordXyn_fieldX_fieldY h0 rfl⟩
  case h_15 h0 => exact decodeClassE_standsFor h0
  case h_16 h0 => exact decodeClassF_standsFor h0
  case h_17 => interval_cases (fieldN0 op).toNat <;> contradiction

/-- Settles O2: each branch of the decoder keeps the fields that make up the word. -/
theorem encodeOfDecode : Obligations.EncodeOfDecode := decode_standsFor

/-! ## UNKNOWN and SYS (30_encoding.md R66) -/

/-- Settles O4: both round trips say which word an UNKNOWN or a SYS stands for. -/
theorem unknownWordsAreTheListedOnes : Obligations.UnknownWordsAreTheListedOnes := by
  intro op
  obtain ⟨hwf, hop⟩ := decode_standsFor op
  refine ⟨⟨fun h => ?_, fun h => ((isUnknownWord_iff op).mp h).decode_eq⟩, fun w h => ?_, ?_, ?_⟩
  · rw [h] at hwf
    exact hwf
  · rw [h] at hop
    exact hop
  · rintro ⟨nnn, h⟩
    rw [h] at hop
    refine ⟨?_, ?_, ?_⟩
    · rw [← toNat_fieldN0, ← hop]
      exact toNat_fieldN0_wordNnn (by decide) nnn
    · rintro rfl
      cases (rfl : decode 0x00E0 = .cls).symm.trans h
    · rintro rfl
      cases (rfl : decode 0x00EE = .ret).symm.trans h
  · rintro ⟨h0, hcls, hret⟩
    exact ⟨_, decode_eq_sys (by rw [toNat_fieldN0, h0]) hcls hret⟩

/-- Settles O6: closed words, so the decoder computes. -/
theorem wordsFromThePatternsDecode : Obligations.WordsFromThePatternsDecode := by
  unfold Obligations.WordsFromThePatternsDecode
  decide

/-! ## The masks of the opcode map (30_encoding.md R64) -/

/-- A word under a mask, digit by digit. -/
theorem toNat_and_eq_digits (op m : Word) :
    (op &&& m).toNat = (fieldN0 op &&& m.extractLsb' 12 4).toNat * 4096 +
      (fieldN1 op &&& m.extractLsb' 8 4).toNat * 256 + (fieldN2 op &&& m.extractLsb' 4 4).toNat * 16 +
      (fieldN3 op &&& m.extractLsb' 0 4).toNat := by
  rw [toNat_eq_digits, fieldN0, fieldN1, fieldN2, fieldN3]
  simp only [BitVec.extractLsb'_and]
  rfl

theorem digit_and_F (b : BitVec 4) : b &&& 0xF#4 = b := BitVec.and_allOnes

theorem toNat_and_FFFF (op : Word) : (op &&& 0xFFFF).toNat = (fieldN0 op).toNat * 4096 + (fieldNnn op).toNat := by
  simp [toNat_and_eq_digits, digit_and_F, toNat_fieldNnn_eq_digits, add_assoc, -BitVec.toNat_and]

theorem toNat_and_F000 (op : Word) : (op &&& 0xF000).toNat = (fieldN0 op).toNat * 4096 + 0 := by
  simp [toNat_and_eq_digits, digit_and_F, -BitVec.toNat_and]

theorem toNat_and_F00F (op : Word) : (op &&& 0xF00F).toNat = (fieldN0 op).toNat * 4096 + (fieldN3 op).toNat := by
  simp [toNat_and_eq_digits, digit_and_F, -BitVec.toNat_and]

theorem toNat_and_F0FF (op : Word) : (op &&& 0xF0FF).toNat = (fieldN0 op).toNat * 4096 + (fieldKk op).toNat := by
  simp [toNat_and_eq_digits, digit_and_F, toNat_fieldKk_eq_digits, add_assoc, -BitVec.toNat_and]

/-- Under a mask that keeps the first digit, a word matches a pattern when the first digits agree and so does what else
the mask keeps. -/
theorem and_beq_of_toNat_and {op m : Word} {k : Nat} (h : (op &&& m).toNat = (fieldN0 op).toNat * 4096 + k)
    (hk : k < 4096) (p : Word) : (op &&& m == p) = ((fieldN0 op).toNat == p.toNat / 4096 && k == p.toNat % 4096) := by
  rw [Bool.eq_iff_iff, Bool.and_eq_true, beq_iff_eq, beq_iff_eq, beq_iff_eq, ← BitVec.toNat_inj, h]
  omega

/-! ## The opcode map on fields (30_encoding.md R64) -/

/-- What a row compares beside the first digit, by its mask: the other three digits, the second byte, the last digit, or
nothing. -/
def OpcodeRow.compared (r : OpcodeRow) (nnn kk n3 : Nat) : Nat :=
  if r.mask = 0xFFFF then nnn else if r.mask = 0xF0FF then kk else if r.mask = 0xF00F then n3 else 0

/-- Whether a word with these fields matches a row, as comparisons of fields (`and_mask_beq_pattern`). -/
def OpcodeRow.fits (n0 nnn kk n3 : Nat) (r : OpcodeRow) : Bool :=
  r.mask == 0 || (n0 == r.pattern.toNat / 4096 && r.compared nnn kk n3 == r.pattern.toNat % 4096)

/-- Every row but the last compares the first digit. -/
theorem mask_of_mem_opcodeTable : ∀ r ∈ opcodeTable,
    r = ⟨"UNKNOWN", 0, 0⟩ ∨ r.mask = 0xFFFF ∨ r.mask = 0xF0FF ∨ r.mask = 0xF00F ∨ r.mask = 0xF000 := by
  decide

theorem and_mask_beq_pattern (op : Word) {r : OpcodeRow} (hr : r ∈ opcodeTable) :
    (op &&& r.mask == r.pattern) =
      r.fits (fieldN0 op).toNat (fieldNnn op).toNat (fieldKk op).toNat (fieldN3 op).toNat := by
  have hkk := (fieldKk op).isLt
  have hn3 := (fieldN3 op).isLt
  obtain ⟨_, m, p⟩ := r
  rcases mask_of_mem_opcodeTable _ hr with h | h | h | h | h
  · cases h
    simp [OpcodeRow.fits]
  · cases h
    exact and_beq_of_toNat_and (toNat_and_FFFF op) (fieldNnn op).isLt p
  · cases h
    exact and_beq_of_toNat_and (toNat_and_F0FF op) (by omega) p
  · cases h
    exact and_beq_of_toNat_and (toNat_and_F00F op) (by omega) p
  · cases h
    exact and_beq_of_toNat_and (toNat_and_F000 op) (by omega) p

theorem firstMatch_eq (op : Word) :
    firstMatch op = (opcodeTable.find? (OpcodeRow.fits (fieldN0 op).toNat (fieldNnn op).toNat (fieldKk op).toNat
      (fieldN3 op).toNat)).map (·.mnemonic) := by
  rw [firstMatch]
  congr 1
  exact List.find?_congr fun r hr => and_mask_beq_pattern op hr

/-- A word of R66 matches the last row only. -/
theorem InUnknownClass.firstMatch_eq {op : Word} (h : InUnknownClass op) : firstMatch op = some "UNKNOWN" := by
  cases h with
  | class5 h0 h | class8 h0 h | class9 h0 h | classE h0 h | classF h0 h =>
    simp only [List.mem_cons, List.not_mem_nil, or_false, not_or] at h
    simp [Sys2Proof.firstMatch_eq, opcodeTable, rowsFixedAndJumps, rowsSkipsAndImmediates, rowsClass8,
      rowsClasses9ToD, rowsClassesEAndF, OpcodeRow.fits, OpcodeRow.compared, h0, h]

/-- Once the fields that select an instruction are known, the search through the map is a computation. -/
theorem firstMatch_encode {i : Instr} (hi : i.wf = true) : firstMatch (encode i) = some i.mnemonic := by
  cases i with
  | cls | ret => rfl
  | sys nnn =>
    obtain ⟨hcls, hret⟩ := (wf_sys_iff nnn).mp hi
    have hcls' : nnn.toNat ≠ 0x0E0 := fun e => hcls (BitVec.eq_of_toNat_eq e)
    have hret' : nnn.toNat ≠ 0x0EE := fun e => hret (BitVec.eq_of_toNat_eq e)
    simp [encode, firstMatch_eq, toNat_fieldN0_wordNnn, fieldNnn_wordNnn, opcodeTable, rowsFixedAndJumps,
      OpcodeRow.fits, OpcodeRow.compared, Instr.mnemonic, hcls', hret']
  | jp nnn | call nnn | ldI nnn | jpV0 nnn =>
    simp only [encode, firstMatch_eq, toNat_fieldN0_wordNnn, Nat.reduceLT]
    rfl
  | seImm x kk | sneImm x kk | ldImm x kk | addImm x kk | rnd x kk =>
    simp only [encode, firstMatch_eq, toNat_fieldN0_wordXkk, Nat.reduceLT, kk.isLt]
    rfl
  | seReg x y | ldReg x y | or x y | and x y | xor x y | addReg x y | sub x y | shr x y | subn x y | shl x y
  | sneReg x y =>
    simp only [encode, firstMatch_eq, toNat_fieldN0_wordXyn, toNat_fieldN3_wordXyn, Nat.reduceLT]
    rfl
  | drw x y n =>
    simp only [encode, firstMatch_eq, toNat_fieldN0_wordXyn, Nat.reduceLT, n.isLt]
    rfl
  | skp x | sknp x | ldVxDt x | ldVxK x | ldDtVx x | ldStVx x | addI x | ldF x | bcd x | stRegs x | ldRegs x =>
    simp only [encode, firstMatch_eq, toNat_fieldN0_wordXkk, toNat_fieldKk_wordXkk, Nat.reduceLT]
    rfl
  | unknown op => exact ((isUnknownWord_iff op).mp hi).firstMatch_eq

/-- Settles O3: every word is the encoding of what it decodes to, and the map finds the kind of an encoding. -/
theorem decoderAgreesWithOpcodeMap : Obligations.DecoderAgreesWithOpcodeMap := by
  intro op
  obtain ⟨hwf, hop⟩ := decode_standsFor op
  have h := firstMatch_encode hwf
  rwa [hop] at h

end Sys2Proof

namespace Sys2Proof.Machine

/-! ## The cycle (30_encoding.md R60, R61) -/

theorem cycle_of_fetch {s : State} {op : Word} (h : fetch s.mem s.pc = .ok op) :
    cycle s = exec (decode op) s.advance := by
  rw [cycle, h, orRaise_ok]

theorem cycle_of_decodeBytes {s : State} {i : Instr} (hpc : s.pc.toNat ≤ 0xFFE)
    (hi : decodeBytes [s.mem.byteAt s.pc.toNat, s.mem.byteAt (s.pc.toNat + 1)] = .ok (i, [])) :
    cycle s = exec i s.advance := by
  cases hi
  exact cycle_of_fetch (fetch_of_le s.mem hpc)

/-- Settles O7: each way a step starts has its law, and the cycle runs the decoded bytes. -/
theorem stepRunsTheDecodedInstruction : Obligations.StepRunsTheDecodedInstruction := by
  refine ⟨fun s i hp hpc hi => ?_, fun s i rest hp hpc hi => ?_, fun s c rest hp => step_of_pending_cons hp⟩
  · rw [step_of_pending_nil hp]
    exact cycle_of_decodeBytes hpc hi
  · rw [step_of_pending_cons hp]
    exact cycle_of_decodeBytes (s := s.setPending rest) hpc hi

/-! ## A placed word (log entry 15) -/

theorem fetchPlace_of_le {s : State} (h : s.pc.toNat ≤ 0xFFE) : fetchPlace s = s.pc := if_neg (Nat.not_lt.mpr h)

theorem fetchPlace_le (s : State) : (fetchPlace s).toNat ≤ 0xFFE := by
  by_cases h : s.pc.toNat ≤ 0xFFE
  · rwa [fetchPlace_of_le h]
  · rw [fetchPlace, if_pos (Nat.lt_of_not_le h)]
    decide

/-- The two bytes of a placed word stand where the next fetch reads them. -/
theorem fetch_placeWord {s : State} (hm : Memory.wf s.mem) (op : Word) :
    fetch (placeWord s op).mem (placeWord s op).pc = .ok op := by
  have hle := fetchPlace_le s
  have hbyte := Memory.byteAt_setBytes hm (a := (fetchPlace s).toNat) (xs := [highByte op, lowByte op])
    (by simp only [List.length_cons, List.length_nil]; omega)
  have hhi : (placeWord s op).mem.byteAt (fetchPlace s).toNat = highByte op := by simp [placeWord, hbyte]
  have hlo : (placeWord s op).mem.byteAt ((fetchPlace s).toNat + 1) = lowByte op := by simp [placeWord, hbyte]
  change fetch _ (fetchPlace s) = _
  rw [fetch_of_le _ hle, hhi, hlo, wordOfBytes_high_low]

theorem step_placeWord {s : State} (hm : Memory.wf s.mem) (op : Word) :
    step (placeWord s op) = exec (decode op) (placeWord s op).advance := by
  rw [step_of_pending_nil rfl]
  exact cycle_of_fetch (fetch_placeWord hm op)

theorem withFetchWord_eq (s : State) (w : Nat) : s.withFetchWord 16 w = placeWord s (BitVec.ofNat 16 w) := by
  rw [State.withFetchWord]
  congr 1
  apply BitVec.eq_of_toNat_eq
  simp

/-- Settles O9: the placed word is fetched, and the place is PC where PC can be fetched from. -/
theorem placedWordIsTheOneExecuted : Obligations.PlacedWordIsTheOneExecuted := by
  intro s w hm
  rw [withFetchWord_eq]
  exact ⟨step_placeWord hm _, fetchPlace_of_le⟩

end Sys2Proof.Machine
end

section
/-! PROOFS. Control transfer and the stack engine (40_control_transfer.md): push and pop, CALL and RET, the jumps, the
no-ops, and the invariant that every step keeps. -/

namespace Sys2Proof.Machine

/-! ## Stack engine (40_control_transfer.md R86, R87) -/

theorem push_of_full {s : State} (a : Word) (h : s.sp = 16) : push s a = .error .stackOverflow :=
  dif_neg (by rw [h]; decide)

theorem push_of_lt {s : State} (a : Word) (h : s.sp.val < 16) :
    push s a = .ok { s with stack := s.stack.set s.sp.val a, sp := ⟨s.sp.val + 1, by omega⟩ } :=
  dif_pos h

theorem pop_of_empty {s : State} (h : s.sp = 0) : pop s = .error .stackUnderflow := dif_pos (by rw [h]; rfl)

/-- With `k + 1` slots in use the pop answers slot `k`, and `k` slots stay in use. -/
theorem pop_of_succ {s : State} {k : Fin 16} (h : s.sp.val = k.val + 1) :
    pop s = .ok (s.stack[k], { s with sp := k.castSucc }) := by
  rcases pop_cases s with ⟨h0, _⟩ | ⟨_, hs, he⟩
  · simp [h0] at h
  · have hk : k = ⟨s.sp.val - 1, hs⟩ := Fin.ext (by simp [h])
    subst hk
    exact he

/-- Settles O18: the two cases of SP. -/
theorem pushWritesTheSlotOfTheOldSp : Obligations.PushWritesTheSlotOfTheOldSp := by
  intro s a
  refine ⟨push_of_full a, fun h => ⟨_, push_of_lt a h, rfl, fun k => ?_, rfl⟩⟩
  simp [Vector.getElem_set, eq_comm]

/-- Settles O19: the two cases of SP. -/
theorem popReadsTheSlotOfTheNewSp : Obligations.PopReadsTheSlotOfTheNewSp := by
  intro s
  exact ⟨pop_of_empty, fun _ hk => ⟨_, pop_of_succ hk, rfl, rfl⟩⟩

/-! ## CALL and RET (40_control_transfer.md R80, R83) -/

theorem exec_call_of_lt (nnn : Addr12) {s : State} (h : s.sp.val < 16) :
    exec (.call nnn) s =
      .next { s with stack := s.stack.set s.sp.val s.pc, sp := ⟨s.sp.val + 1, by omega⟩, pc := nnn.setWidth 16 } := by
  rw [exec, execCall, push_of_lt s.pc h, orRaise_ok, addrOperand_eq]
  rfl

theorem exec_call_of_full (nnn : Addr12) {s : State} (h : s.sp = 16) :
    exec (.call nnn) s = .fault .stackOverflow := by
  rw [exec, execCall, push_of_full s.pc h, orRaise_error]

theorem exec_ret_of_succ {s : State} {k : Fin 16} (h : s.sp.val = k.val + 1) :
    exec .ret s = .next { s with sp := k.castSucc, pc := s.stack[k] } := by
  rw [exec, execRet, pop_of_succ h]
  rfl

theorem exec_ret_of_empty {s : State} (h : s.sp = 0) : exec .ret s = .fault .stackUnderflow := by
  rw [exec, execRet, pop_of_empty h, orRaise_error]

/-- A CALL that completes had a free slot, and is the CALL of `exec_call_of_lt`. -/
theorem exec_call_next {nnn : Addr12} {s t : State} (h : exec (.call nnn) s = .next t) :
    ∃ hs : s.sp.val < 16, t =
      { s with stack := s.stack.set s.sp.val s.pc, sp := ⟨s.sp.val + 1, by omega⟩, pc := nnn.setWidth 16 } := by
  by_cases hs : s.sp.val < 16
  · cases (exec_call_of_lt nnn hs).symm.trans h
    exact ⟨hs, rfl⟩
  · have hfull : s.sp = 16 := by omega
    cases (exec_call_of_full nnn hfull).symm.trans h

/-- Settles O15: the encoder's word for CALL, and the two cases of SP. -/
theorem callPushesTheReturnAddress : Obligations.CallPushesTheReturnAddress := by
  intro nnn s
  exact ⟨decode_encode (i := .call nnn) rfl, exec_call_of_lt nnn, exec_call_of_full nnn⟩

/-- Settles O16: the two cases of SP. -/
theorem retPopsTheReturnAddress : Obligations.RetPopsTheReturnAddress := by
  intro s
  refine ⟨fun h hs => ?_, exec_ret_of_empty⟩
  exact exec_ret_of_succ (k := ⟨s.sp.val - 1, hs⟩) (Nat.sub_add_cancel h).symm

/-- Settles O17: RET pops the slot that CALL pushed to, and the frames of both leave every other slot. -/
theorem retUndoesCall : Obligations.RetUndoesCall := by
  intro nnn s t q h
  obtain ⟨hs, rfl⟩ := exec_call_next h
  refine ⟨_, exec_ret_of_succ (k := ⟨s.sp.val, hs⟩) rfl, ?_, rfl, fun k hk => ?_⟩
  · exact Vector.getElem_set_self hs
  · exact Vector.getElem_set_ne hs k.isLt hk.symm

/-! ## Jumps (40_control_transfer.md R82, R84) -/

theorem exec_jp (nnn : Addr12) (s : State) : exec (.jp nnn) s = .next { s with pc := nnn.setWidth 16 } := by
  rw [exec, execJp, addrOperand_eq]
  rfl

theorem toNat_setWidth_addr_le (nnn : Addr12) : (nnn.setWidth 16 : Word).toNat ≤ 0xFFF := by
  have hlt := nnn.isLt
  rw [BitVec.toNat_setWidth_of_le (by decide)]
  omega

/-- The sum of an address and a byte is below 65536, so that the modulus of R84 never acts. -/
theorem toNat_addrPlusV0 (nnn : Addr12) (s : State) : (addrPlusV0 nnn s).toNat = nnn.toNat + s.v[0].toNat := by
  have hn := nnn.isLt
  have hv := s.v[0].isLt
  rw [addrPlusV0, BitVec.toNat_ofNat]
  exact Nat.mod_eq_of_lt (by simp; omega)

theorem toNat_addrPlusV0_le (nnn : Addr12) (s : State) : (addrPlusV0 nnn s).toNat ≤ 0x10FE := by
  have hn := nnn.isLt
  have hv := s.v[0].isLt
  rw [toNat_addrPlusV0]
  omega

/-- The jump to `a` stands at `a`: the cycle there changes nothing (40_control_transfer.md R82). -/
theorem cycle_of_self_jump {s : State} (hpc : s.pc.toNat ≤ 0xFFE)
    (hf : fetch s.mem s.pc = .ok (BitVec.ofNat 16 (0x1000 + s.pc.toNat))) : cycle s = .next s := by
  have hnnn : (s.pc.setWidth 12).toNat = s.pc.toNat := by
    rw [BitVec.toNat_setWidth]
    omega
  have hback : (s.pc.setWidth 12).setWidth 16 = s.pc := by
    apply BitVec.eq_of_toNat_eq
    rw [BitVec.toNat_setWidth_of_le (by decide), hnnn]
  have hdec : decode (BitVec.ofNat 16 (0x1000 + s.pc.toNat)) = .jp (s.pc.setWidth 12) := by
    rw [← hnnn]
    exact decode_encode (i := .jp (s.pc.setWidth 12)) rfl
  rw [cycle_of_fetch hf, hdec, exec_jp, hback]
  rfl

/-- Settles O13: the encoder's word for JP, its effect, and the jump to itself. -/
theorem jpSetsPc : Obligations.JpSetsPc := by
  refine ⟨fun nnn => decode_encode (i := .jp nnn) rfl, fun nnn s => ⟨exec_jp nnn s, toNat_setWidth_addr_le nnn⟩,
    fun m => fetch_of_gt m (by decide), fun s hp hpc hf => ?_⟩
  rw [step_of_pending_nil hp]
  exact cycle_of_self_jump hpc hf

/-- Settles O14: the target is the exact sum of the two operands. -/
theorem jpV0AddsRegisterZero : Obligations.JpV0AddsRegisterZero := by
  refine ⟨fun nnn => decode_encode (i := .jpV0 nnn) rfl, fun nnn s => ⟨addrPlusV0 nnn s, rfl, ?_⟩⟩
  exact ⟨toNat_addrPlusV0 nnn s, toNat_addrPlusV0_le nnn s, fetch_of_gt s.mem⟩

/-! ## No-ops (40_control_transfer.md R81, R85) -/

theorem decode_ofNat_eq_sys {nnn : Addr12} (hcls : nnn ≠ 0x0E0) (hret : nnn ≠ 0x0EE) :
    decode (BitVec.ofNat 16 nnn.toNat) = .sys nnn := by
  have h := decode_encode (i := .sys nnn) ((wf_sys_iff nnn).mpr ⟨hcls, hret⟩)
  rwa [encode, wordNnn, Nat.zero_mul, Nat.zero_add] at h

/-- Two zero bytes at PC are SYS 0x000, a no-op. -/
theorem cycle_of_zeroes {s : State} (hpc : s.pc.toNat ≤ 0xFFE) (hhi : s.mem.byteAt s.pc.toNat = 0)
    (hlo : s.mem.byteAt (s.pc.toNat + 1) = 0) : cycle s = .next s.advance :=
  cycle_of_decodeBytes (i := .sys 0) hpc (by rw [hhi, hlo]; rfl)

theorem cycle_of_fetch_error {s : State} {f : Fault} (h : fetch s.mem s.pc = .error f) : cycle s = .fault f := by
  rw [cycle, h, orRaise_error]

/-- Settles O12: the decoder on class 0 and on the words of R66, and the cycle on zeroes and past memory. -/
theorem sysAndUnknownAreNoOps : Obligations.SysAndUnknownAreNoOps := by
  intro s
  refine ⟨fun _ => decode_ofNat_eq_sys, fun _ => rfl, fun op h => ((isUnknownWord_iff op).mp h).decode_eq,
    fun _ => rfl, fun hp hpc hhi hlo => ?_, fun hp hpc => ?_⟩
  · rw [step_of_pending_nil hp]
    exact cycle_of_zeroes hpc hhi hlo
  · rw [step_of_pending_nil hp]
    apply cycle_of_fetch_error
    rw [hpc]
    exact fetch_of_gt s.mem (by decide)

/-! ## The invariant: the execute phase -/

/-- Only a store touches memory, and a store is a write that MemWrite admits (20_memory.md R45, R54). -/
theorem exec_keeps_memory_wf {i : Instr} {s t : State} (hm : Memory.wf s.mem) (h : exec i s = .next t) :
    Memory.wf t.mem := by
  cases i with
  | bcd x =>
    obtain ⟨m, hw, hgo⟩ := orRaise_next.mp h
    cases hgo
    exact memWrite_wf hm (List.cons_ne_nil _ _) hw
  | stRegs x =>
    obtain ⟨m, hw, hgo⟩ := orRaise_next.mp h
    cases hgo
    exact memWrite_wf hm (List.ne_nil_of_length_eq_add_one (length_regsUpTo x s)) hw
  | _ =>
    rw [(displayAndMemoryWriters _ s t h).2 nofun nofun]
    exact hm

/-- Only CALL writes a slot, and what it writes is the advanced PC (90_conflicts.md C6). -/
theorem exec_keeps_stack_le {i : Instr} {s t : State} (hstack : ∀ k : Fin 16, s.stack[k].toNat ≤ 0x1000)
    (hpc : s.pc.toNat ≤ 0x1000) (h : exec i s = .next t) (k : Fin 16) : t.stack[k].toNat ≤ 0x1000 := by
  cases i with
  | call nnn =>
    obtain ⟨hs, rfl⟩ := exec_call_next h
    change (s.stack.set s.sp.val s.pc)[k.val].toNat ≤ 0x1000
    rw [Vector.getElem_set]
    split
    · exact hpc
    · exact hstack k
  | _ =>
    rw [((indexAndStackWriters _ s t h).2 nofun).1]
    exact hstack k

/-- A bound for the two PCs that a condition chooses from. -/
theorem toNat_ite_le {P : Prop} [Decidable P] {a b : Word} {n : Nat} (ha : a.toNat ≤ n) (hb : b.toNat ≤ n) :
    (if P then a else b).toNat ≤ n := by
  split
  · exact ha
  · exact hb

/-- PC after a cycle from a fetchable address, row by row of 10_state.md R15: the highest is the target of `Bnnn`. -/
theorem pcAfter_le (i : Instr) {s : State} (hstack : ∀ k : Fin 16, s.stack[k].toNat ≤ 0x1000)
    (hpc : s.pc.toNat ≤ 0xFFE) : (Claims.pcAfter i s).toNat ≤ 0x10FE := by
  have hstay : s.pc.toNat ≤ 0x10FE := by omega
  have hnext : (s.pc + 2).toNat ≤ 0x10FE := by bv_omega
  have hskip : (s.pc + 4).toNat ≤ 0x10FE := by bv_omega
  cases i with
  | jp nnn | call nnn => exact (toNat_setWidth_addr_le nnn).trans (by decide)
  | jpV0 nnn =>
    rw [Claims.pcAfter, ← addrPlusV0_eq]
    exact toNat_addrPlusV0_le nnn s
  | ret =>
    have hs : s.sp.val - 1 < 16 := by omega
    rw [Claims.pcAfter, Vector.getElem?_eq_getElem hs]
    exact (hstack ⟨s.sp.val - 1, hs⟩).trans (by decide)
  | seImm x y | sneImm x y | seReg x y | sneReg x y | skp x | sknp x => exact toNat_ite_le hskip hnext
  | ldVxK x => exact toNat_ite_le hstay hnext
  | _ => exact hnext

/-! ## The invariant: the commands of the host -/

open Safety (Inv)

/-- The invariant reads memory, the stack and PC. -/
theorem inv_of_eq {s t : State} (h : Inv s) (hmem : t.mem = s.mem) (hstack : t.stack = s.stack) (hpc : t.pc = s.pc) :
    Inv t where
  memWf := hmem ▸ h.memWf
  stackLow := hstack ▸ h.stackLow
  pcLow := hpc ▸ h.pcLow

/-- The fetch admits PC up to 0xFFE, so that the execute phase starts from at most 0x1000 (30_encoding.md R60, R61). -/
theorem cycle_keeps_inv {s t : State} (hs : Inv s) (h : cycle s = .next t) : Inv t := by
  obtain ⟨hpc, op, _, he⟩ := cycle_next h
  have hadv : s.advance.pc.toNat ≤ 0x1000 := by
    rw [State.advance_pc]
    bv_omega
  exact {
    memWf := exec_keeps_memory_wf (s := s.advance) hs.memWf he
    stackLow := exec_keeps_stack_le (s := s.advance) hs.stackLow hadv he
    pcLow := exec_pcAfter he ▸ pcAfter_le _ hs.stackLow hpc }

theorem loadRom_keeps_inv {bytes : List Byte} {s t : State} (hs : Inv s) (h : loadRom bytes s = .next t) : Inv t := by
  unfold loadRom at h
  split at h
  case isTrue => cases h
  case isFalse hfit =>
    cases h
    have hlen : bytes.length ≤ 0xE00 := Nat.le_of_not_lt hfit
    have hend : 0x200 + bytes.length ≤ 4096 := by omega
    exact {
      memWf := Memory.setBytes_wf hs.memWf hend
      stackLow := hs.stackLow
      pcLow := hs.pcLow }

theorem writeKey_keeps_inv {s t : State} {k : Nat} {down : Bool} (hs : Inv s) (h : writeKey s k down = .ok t) :
    Inv t := by
  rcases writeKey_cases s k down with ⟨_, he⟩ | ⟨_, he⟩
  · cases he.symm.trans h
  · cases he.symm.trans h
    exact inv_of_eq hs rfl rfl rfl

theorem command_keeps_inv {c : Command} {s t : State} (hs : Inv s) (h : command c s = .next t) : Inv t := by
  cases c with
  | reset =>
    cases h
    exact inv_of_eq resetHasTheInvariant rfl rfl rfl
  | loadRom bytes => exact loadRom_keeps_inv hs h
  | cycle => exact cycle_keeps_inv hs h
  | decrementTimers =>
    cases h
    exact inv_of_eq hs rfl rfl rfl
  | keyDown k | keyUp k =>
    obtain ⟨u, hw, hgo⟩ := orRaise_next.mp h
    cases hgo
    exact writeKey_keeps_inv hs hw

/-- Settles O54: a step is one command, and taking it from the host's list leaves what the invariant reads. -/
theorem stepKeepsTheInvariant : Obligations.StepKeepsTheInvariant := by
  intro s t hs h
  cases hp : s.pending with
  | nil =>
    rw [step_of_pending_nil hp] at h
    exact cycle_keeps_inv hs h
  | cons c rest =>
    rw [step_of_pending_cons hp] at h
    exact command_keeps_inv (inv_of_eq (t := s.setPending rest) hs rfl rfl rfl) h

end Sys2Proof.Machine
end

section
/-! PROOFS. Skips (41_skips.md): SE and SNE on an immediate and on two registers. -/

namespace Sys2Proof

/-! ## Words written as numbers (30_encoding.md R63, R64) -/

/-- A number `w` that spells the pattern of `i` in another order of summands decodes to `i`. -/
theorem decode_ofNat_of_encode {i : Instr} {v w : Nat} (hi : i.wf = true) (he : encode i = BitVec.ofNat 16 v)
    (hw : w = v) : decode (BitVec.ofNat 16 w) = i := by
  rw [hw, ← he, decode_encode hi]

/-- Classes 5 and 9 have one row each in R64, with the last digit 0. -/
theorem inUnknownClass_wordXyn {c : Nat} (hc : c = 0x5 ∨ c = 0x9) (x y : Reg) {n : Fin 16} (hn : n ≠ 0) :
    InUnknownClass (wordXyn c x y n.val) := by
  have hlt : c < 16 := by omega
  have h0 : (fieldN0 (wordXyn c x y n.val)).toNat = c := toNat_fieldN0_wordXyn hlt x y n.isLt
  have h3 : (fieldN3 (wordXyn c x y n.val)).toNat ∉ [0] := by
    rw [toNat_fieldN3_wordXyn hlt x y n.isLt, List.mem_singleton]
    exact Fin.val_ne_of_ne hn
  rcases hc with rfl | rfl
  · exact .class5 h0 h3
  · exact .class9 h0 h3

theorem decode_ofNat_eq_unknown {c w : Nat} (hc : c = 0x5 ∨ c = 0x9) (x y : Reg) {n : Fin 16} (hn : n ≠ 0)
    (hw : w = c * 4096 + x.val * 256 + y.val * 16 + n.val) :
    decode (BitVec.ofNat 16 w) = .unknown (BitVec.ofNat 16 w) := by
  subst hw
  exact (inUnknownClass_wordXyn hc x y hn).decode_eq

end Sys2Proof

namespace Sys2Proof.Machine

/-! ## The effect of a skip (41_skips.md R100 to R104) -/

/-- A skip on the condition `P`: PC is all that it can write. -/
theorem skipIf_eq_ite (s : State) {c : Bool} {P : Prop} [Decidable P] (hc : c = true ↔ P) :
    s.skipIf c = if P then { s with pc := s.pc + 2 } else s := by
  simp only [State.skipIf, hc]
  rfl

/-- Settles O20: the encoder's words for the two skips, and the test of each as a condition on `V[x]`. -/
theorem immediateSkips : Obligations.ImmediateSkips := by
  intro x kk s
  refine ⟨?decodeSe, ?decodeSne, ?execSe, ?execSne⟩
  case decodeSe => exact decode_ofNat_of_encode (i := .seImm x kk) rfl rfl (by omega)
  case decodeSne => exact decode_ofNat_of_encode (i := .sneImm x kk) rfl rfl (by omega)
  case execSe => exact congrArg _ (skipIf_eq_ite s beq_iff_eq)
  case execSne => exact congrArg _ (skipIf_eq_ite s bne_iff_ne)

/-- Settles O21: as for the immediate skips; a last digit other than 0 puts the word among those of R66. -/
theorem registerSkips : Obligations.RegisterSkips := by
  intro x y s
  refine ⟨?decodeSe, ?decodeSne, ?execSe, ?execSne, ?otherDigits⟩
  case decodeSe => exact decode_ofNat_of_encode (i := .seReg x y) rfl rfl (by omega)
  case decodeSne => exact decode_ofNat_of_encode (i := .sneReg x y) rfl rfl (by omega)
  case execSe => exact congrArg _ (skipIf_eq_ite s beq_iff_eq)
  case execSne => exact congrArg _ (skipIf_eq_ite s bne_iff_ne)
  case otherDigits =>
    rintro n hn op (rfl | rfl)
    · exact decode_ofNat_eq_unknown (c := 0x5) (.inl rfl) x y hn (by omega)
    · exact decode_ofNat_eq_unknown (c := 0x9) (.inr rfl) x y hn (by omega)

end Sys2Proof.Machine
end

section
/-! PROOFS. Register loads, the ALU instructions and RND (42_load_alu.md): the ALU's table in the arithmetic of bytes,
what an instruction writes of it, and with that the statements on the twelve instructions. -/

namespace Sys2Proof.Machine

/-! ## The ALU's table (42_load_alu.md R122, R124)

The rows of MOV, OR, AND and XOR are the definition's own. -/

theorem alu_addi (a b : Byte) : alu .addi a b = ⟨a + b, false, false⟩ := by
  rw [BitVec.add_def]
  rfl

theorem alu_add (a b : Byte) : alu .add a b = ⟨a + b, decide (256 ≤ a.toNat + b.toNat), true⟩ := by
  rw [BitVec.add_def]
  rfl

/-- The difference of two numbers, reduced modulo 256, is the difference of the bytes. -/
theorem ofInt_toNat_sub_toNat (a b : Byte) : BitVec.ofInt 8 ((a.toNat : Int) - b.toNat) = a - b := by
  apply BitVec.eq_of_toInt_eq
  rw [BitVec.toInt_ofInt, BitVec.toInt_sub, BitVec.toInt_eq_toNat_bmod, BitVec.toInt_eq_toNat_bmod,
    Int.bmod_sub_bmod, Int.sub_bmod_bmod]

theorem alu_sub (a b : Byte) : alu .sub a b = ⟨a - b, decide (b.toNat ≤ a.toNat), true⟩ := by
  rw [← ofInt_toNat_sub_toNat]
  rfl

theorem alu_subn (a b : Byte) : alu .subn a b = ⟨b - a, decide (a.toNat ≤ b.toNat), true⟩ := by
  rw [← ofInt_toNat_sub_toNat]
  rfl

/-- The bit shifted out is the remainder modulo 2. -/
theorem alu_shr (a b : Byte) : alu .shr a b = ⟨a >>> 1, a.getLsbD 0, true⟩ := by
  have hr : BitVec.ofNat 8 (a.toNat / 2) = a >>> 1 := by
    apply BitVec.eq_of_toNat_eq
    rw [BitVec.toNat_ofNat, BitVec.toNat_ushiftRight, Nat.shiftRight_one]
    omega
  have hflag : a.getLsbD 0 = decide (a.toNat % 2 = 1) := Nat.testBit_zero _
  rw [← hr, hflag]
  rfl

/-- The bit shifted out is the carry of the doubled number. -/
theorem alu_shl (a b : Byte) : alu .shl a b = ⟨a <<< 1, a.getLsbD 7, true⟩ := by
  have hr : BitVec.ofNat 8 (a.toNat * 2) = a <<< 1 := by
    rw [BitVec.shiftLeft_eq_mul_twoPow]
    rfl
  have hflag : a.getLsbD 7 = decide (a.toNat * 2 ≥ 256) := by
    have hmsb : a.getLsbD 7 = decide (128 ≤ a.toNat) := a.msb_eq_decide
    rw [hmsb, decide_eq_decide]
    omega
  rw [← hr, hflag]
  rfl

/-! ## What an instruction writes of the ALU's outputs (42_load_alu.md R122, R123) -/

section
variable {fn : AluFn} {x : Reg} {b r : Byte} {s : State}

theorem aluStep_of_no_flag (h : alu fn s.v[x] b = ⟨r, false, false⟩) :
    aluStep fn x b s = { s with v := s.v.set x r } := by
  rw [aluStep_eq, h]
  rfl

/-- With the write enable 1 and a flag that says `P`; for `x = 15` the second write is the one that stays. -/
theorem aluStep_of_flag {c : Bool} {P : Prop} [Decidable P] (h : alu fn s.v[x] b = ⟨r, c, true⟩)
    (hc : c = true ↔ P) :
    aluStep fn x b s = { s with v := (s.v.set x r).set 15 (if P then 1 else 0) } := by
  have hbyte : flagByte c = if P then 1 else 0 := by simp only [flagByte, hc]
  rw [aluStep_eq, h, ← hbyte]
  rfl

end

/-! ## The instructions (42_load_alu.md R110 to R121) -/

/-- Settles O24: the ALU's rows ADD, SUB and SUBN, whose flag survives for every `x`. -/
theorem additionAndSubtraction : Obligations.AdditionAndSubtraction := by
  intro x y s
  refine ⟨?decodeAdd, ?execAdd, ?decodeSub, ?execSub, ?decodeSubn, ?execSubn⟩
  case decodeAdd => exact decode_ofNat_of_encode (i := .addReg x y) rfl rfl (by omega)
  case decodeSub => exact decode_ofNat_of_encode (i := .sub x y) rfl rfl (by omega)
  case decodeSubn => exact decode_ofNat_of_encode (i := .subn x y) rfl rfl (by omega)
  case execAdd => exact congrArg Host.Outcome.next (aluStep_of_flag (alu_add _ _) decide_eq_true_iff)
  case execSub => exact congrArg Host.Outcome.next (aluStep_of_flag (alu_sub _ _) decide_eq_true_iff)
  case execSubn => exact congrArg Host.Outcome.next (aluStep_of_flag (alu_subn _ _) decide_eq_true_iff)

/-- Settles O25: the ALU's rows SHR and SHL, which do not use the second operand. -/
theorem shiftsByOne : Obligations.ShiftsByOne := by
  intro x y s
  refine ⟨?decodeShr, ?execShr, ?decodeShl, ?execShl⟩
  case decodeShr => exact decode_ofNat_of_encode (i := .shr x y) rfl rfl (by omega)
  case decodeShl => exact decode_ofNat_of_encode (i := .shl x y) rfl rfl (by omega)
  case execShr => exact congrArg Host.Outcome.next (aluStep_of_flag (alu_shr _ _) Iff.rfl)
  case execShl => exact congrArg Host.Outcome.next (aluStep_of_flag (alu_shl _ _) Iff.rfl)

/-- Settles O22: the ALU's rows MOV, OR, AND and XOR, whose write enable is 0. -/
theorem loadsAndLogic : Obligations.LoadsAndLogic := by
  intro x y kk s
  refine ⟨?decodeLdImm, ?execLdImm, ?decodeLdReg, ?execLdReg, ?decodeOr, ?execOr, ?decodeAnd, ?execAnd, ?decodeXor,
    ?execXor⟩
  case decodeLdImm => exact decode_ofNat_of_encode (i := .ldImm x kk) rfl rfl (by omega)
  case decodeLdReg => exact decode_ofNat_of_encode (i := .ldReg x y) rfl rfl (by omega)
  case decodeOr => exact decode_ofNat_of_encode (i := .or x y) rfl rfl (by omega)
  case decodeAnd => exact decode_ofNat_of_encode (i := .and x y) rfl rfl (by omega)
  case decodeXor => exact decode_ofNat_of_encode (i := .xor x y) rfl rfl (by omega)
  case execLdImm | execLdReg | execOr | execAnd | execXor => exact congrArg Host.Outcome.next (aluStep_of_no_flag rfl)

/-- Settles O23: the ALU's row ADDI, whose sum of bytes is the sum of their numbers modulo 256. -/
theorem addImmediateWraps : Obligations.AddImmediateWraps := by
  intro x kk s
  refine ⟨?decodeAddImm, s.v[x] + kk, ?execAddImm, ?modulo256⟩
  case decodeAddImm => exact decode_ofNat_of_encode (i := .addImm x kk) rfl rfl (by omega)
  case execAddImm => exact congrArg Host.Outcome.next (aluStep_of_no_flag (alu_addi _ _))
  case modulo256 => exact BitVec.toNat_add _ _

/-- Settles O26: row by row, and the two writes for each value of the write enable. -/
theorem aluTable : Obligations.AluTable := by
  refine ⟨fun fn x b s => ⟨fun hwe => ?noFlag, fun hwe _ => ?flag⟩, fun a b => ?rows⟩
  case noFlag =>
    rw [aluStep_eq, hwe]
    rfl
  case flag => exact aluStep_of_flag (hwe ▸ rfl) Iff.rfl
  case rows =>
    exact ⟨rfl, rfl, rfl, rfl, alu_addi a b, alu_add a b, alu_sub a b, alu_shr a b, alu_subn a b, alu_shl a b⟩

/-- Settles O27: a bit of the mask that is 0 is 0 in the masked byte, whatever was drawn. -/
theorem rndMasksTheDraw : Obligations.RndMasksTheDraw := by
  intro x kk s
  refine ⟨?decodeRnd, rfl, fun k hk => ?maskedOut⟩
  case decodeRnd => exact decode_ofNat_of_encode (i := .rnd x kk) rfl rfl (by omega)
  case maskedOut => rw [BitVec.getLsbD_and, hk, Bool.and_false]

end Sys2Proof.Machine
end

section
/-! PROOFS. The index register and the memory instructions (43_index_memory.md): what LD_I, ADD_I and LD_F put into I,
and the stores and the load on each side of the bound check. -/

namespace Sys2Proof.Machine

/-! ## The index register (43_index_memory.md R130, R131, R132) -/

/-- The sum of two numbers, reduced modulo 65536, is the sum of the words (43_index_memory.md R131). -/
theorem exec_addI (x : Reg) (s : State) : exec (.addI x) s = .next { s with i := s.i + s.v[x].setWidth 16 } := by
  have hsum : BitVec.ofNat 16 (s.i.toNat + s.v[x].toNat) = s.i + s.v[x].setWidth 16 := by
    rw [BitVec.ofNat_add, BitVec.ofNat_toNat, BitVec.ofNat_toNat, BitVec.setWidth_eq]
  exact congrArg (fun w => Host.Outcome.next (s.setI w)) hsum

/-- Five times a byte fits into I. -/
theorem toNat_ofNat_mul_glyphBytes (b : Byte) : (BitVec.ofNat 16 (b.toNat * 5)).toNat = b.toNat * 5 := by
  have hb := b.isLt
  exact Nat.mod_eq_of_lt (by omega)

/-- Settles O28: the encoder's words, and the value that each instruction gives to I. -/
theorem indexRegisterInstructions : Obligations.IndexRegisterInstructions := by
  refine ⟨fun nnn s => ⟨?decodeLdI, ?execLdI⟩, fun x s => ⟨?decodeAddI, exec_addI x s⟩,
    fun x s => ⟨?decodeLdF, _, rfl, toNat_ofNat_mul_glyphBytes s.v[x]⟩⟩
  case decodeLdI => exact decode_encode (i := .ldI nnn) rfl
  case decodeAddI => exact decode_ofNat_of_encode (i := .addI x) rfl rfl (by omega)
  case decodeLdF => exact decode_ofNat_of_encode (i := .ldF x) rfl rfl (by omega)
  case execLdI => exact congrArg (fun w => Host.Outcome.next (s.setI w)) (addrOperand_eq nnn)

/-! ## The checked accesses by their highest offset `k` (20_memory.md R44, R45) -/

section
variable {m : Memory} {a k : Nat} {xs : List Byte}

theorem memWrite_of_le (hx : xs.length = k + 1) (h : a + k ≤ 4095) : memWrite m a xs = .ok (m.setBytes a xs) :=
  if_neg (by omega)

theorem memWrite_of_gt (hx : xs.length = k + 1) (h : 4095 < a + k) :
    memWrite m a xs = .error (.memoryOutOfBounds (a + k)) := by
  rw [memWrite, hx]
  exact if_pos h

theorem memRead_of_le (h : a + k ≤ 4095) : memRead m a (k + 1) = .ok (m.bytesAt a (k + 1)) := by
  rw [memRead, if_neg k.succ_ne_zero]
  exact if_neg (Nat.not_lt.mpr h)

theorem memRead_of_gt (h : 4095 < a + k) : memRead m a (k + 1) = .error (.memoryOutOfBounds (a + k)) := by
  rw [memRead, if_neg k.succ_ne_zero]
  exact if_pos h

end

/-! ## BCD (43_index_memory.md R133) -/

section
variable {x : Reg} {s : State}

theorem exec_bcd_of_le (h : baseAddress s + 2 ≤ 4095) :
    exec (.bcd x) s = .next (s.setMem (s.mem.setBytes (baseAddress s) (bcdDigits s.v[x]))) := by
  rw [exec, execBcd, memWrite_of_le (length_bcdDigits _) h, orRaise_ok]

theorem exec_bcd_of_gt (h : 4095 < baseAddress s + 2) :
    exec (.bcd x) s = .fault (.memoryOutOfBounds (baseAddress s + 2)) := by
  rw [exec, execBcd, memWrite_of_gt (length_bcdDigits _) h, orRaise_error]

/-- A number up to the value of some byte fits into a byte. -/
theorem toNat_ofNat_of_le_toNat {n : Nat} {b : Byte} (h : n ≤ b.toNat) : (BitVec.ofNat 8 n).toNat = n :=
  Nat.mod_eq_of_lt (Nat.lt_of_le_of_lt h b.isLt)

theorem afterBcd_hundreds : (Claims.afterBcd x s (baseAddress s)).toNat = s.v[x].toNat / 100 := by
  rw [Claims.afterBcd, if_pos rfl]
  exact toNat_ofNat_of_le_toNat (b := s.v[x]) (by omega)

theorem afterBcd_tens : (Claims.afterBcd x s (baseAddress s + 1)).toNat = s.v[x].toNat / 10 % 10 := by
  rw [Claims.afterBcd, if_neg (by omega), if_pos rfl]
  exact toNat_ofNat_of_le_toNat (b := s.v[x]) (by omega)

theorem afterBcd_units : (Claims.afterBcd x s (baseAddress s + 2)).toNat = s.v[x].toNat % 10 := by
  rw [Claims.afterBcd, if_neg (by omega), if_neg (by omega), if_pos rfl]
  exact toNat_ofNat_of_le_toNat (b := s.v[x]) (by omega)

theorem afterBcd_of_outside {a : Nat} (h : a < baseAddress s ∨ baseAddress s + 3 ≤ a) :
    Claims.afterBcd x s a = s.mem.byteAt a := by
  rw [Claims.afterBcd, if_neg (by omega), if_neg (by omega), if_neg (by omega)]

end

/-- Settles O29: each digit is at most `V[x]`, so that it fits into its byte. -/
theorem bcdStoresThreeDigits : Obligations.BcdStoresThreeDigits := by
  intro x s hm
  refine ⟨decode_ofNat_of_encode (i := .bcd x) rfl rfl (by omega), fun hle => ?_, exec_bcd_of_gt⟩
  have hexec := exec_bcd_of_le (x := x) hle
  have hbytes := byteAt_of_exec_bcd hm hexec
  refine ⟨_, hexec, ?hundreds, ?tens, ?units, fun a ha => ?others⟩
  case hundreds => exact (congrArg BitVec.toNat (hbytes _)).trans afterBcd_hundreds
  case tens => exact (congrArg BitVec.toNat (hbytes _)).trans afterBcd_tens
  case units => exact (congrArg BitVec.toNat (hbytes _)).trans afterBcd_units
  case others => exact (hbytes a).trans (afterBcd_of_outside ha)

/-! ## ST_REGS (43_index_memory.md R134, R136) -/

section
variable {x : Reg} {s : State}

theorem exec_stRegs_of_le (h : baseAddress s + x.val ≤ 4095) :
    exec (.stRegs x) s = .next (s.setMem (s.mem.setBytes (baseAddress s) (regsUpTo x s))) := by
  rw [exec, execStRegs, memWrite_of_le (length_regsUpTo x s) h, orRaise_ok]

theorem exec_stRegs_of_gt (h : 4095 < baseAddress s + x.val) :
    exec (.stRegs x) s = .fault (.memoryOutOfBounds (baseAddress s + x.val)) := by
  rw [exec, execStRegs, memWrite_of_gt (length_regsUpTo x s) h, orRaise_error]

/-- An ST_REGS that completes had its range in memory, and is the one of `exec_stRegs_of_le`. -/
theorem exec_stRegs_next {t : State} (h : exec (.stRegs x) s = .next t) :
    baseAddress s + x.val ≤ 4095 ∧ t = s.setMem (s.mem.setBytes (baseAddress s) (regsUpTo x s)) := by
  rcases le_or_gt (baseAddress s + x.val) 4095 with hle | hgt
  · cases (exec_stRegs_of_le hle).symm.trans h
    exact ⟨hle, rfl⟩
  · cases (exec_stRegs_of_gt hgt).symm.trans h

/-- A stored register stands at its number's offset from I. -/
theorem byteAt_base_add_of_exec_stRegs {t : State} (hm : Memory.wf s.mem) (h : exec (.stRegs x) s = .next t) {k : Reg}
    (hk : k ≤ x) : t.mem.byteAt (baseAddress s + k.val) = s.v[k] := by
  have hin : baseAddress s ≤ baseAddress s + k.val ∧ baseAddress s + k.val ≤ baseAddress s + x.val :=
    ⟨Nat.le_add_right _ _, Nat.add_le_add_left hk _⟩
  rw [byteAt_of_exec_stRegs hm h, Claims.afterStRegs, if_pos hin, Nat.add_sub_cancel_left,
    Vector.getElem?_eq_getElem k.isLt]
  rfl

end

/-- Settles O30: the bytes of the stored range, and outside it the byte as it was. -/
theorem stRegsStoresTheRange : Obligations.StRegsStoresTheRange := by
  intro x s hm
  refine ⟨decode_ofNat_of_encode (i := .stRegs x) rfl rfl (by omega), fun hle => ?_, exec_stRegs_of_gt⟩
  have hexec := exec_stRegs_of_le hle
  refine ⟨_, hexec, fun k hk => byteAt_base_add_of_exec_stRegs hm hexec hk, fun a ha => ?_⟩
  exact (byteAt_of_exec_stRegs hm hexec a).trans (if_neg (by omega))

/-! ## LD_REGS (43_index_memory.md R135, R136) -/

section
variable {x : Reg} {s : State}

theorem exec_ldRegs_of_le (h : baseAddress s + x.val ≤ 4095) :
    exec (.ldRegs x) s = .next { s with v := setRegs s.v 0 (s.mem.bytesAt (baseAddress s) (x.val + 1)) } := by
  rw [exec, execLdRegs, memRead_of_le h, orRaise_ok]

theorem exec_ldRegs_of_gt (h : 4095 < baseAddress s + x.val) :
    exec (.ldRegs x) s = .fault (.memoryOutOfBounds (baseAddress s + x.val)) := by
  rw [exec, execLdRegs, memRead_of_gt h, orRaise_error]

end

/-- The registers up to `x` take the bytes of memory from `a` on, one each. -/
theorem getElem_setRegs_bytesAt (v : Vector Byte 16) (m : Memory) (a : Nat) (x k : Reg) :
    (setRegs v 0 (m.bytesAt a (x.val + 1)))[k] = if k ≤ x then m.byteAt (a + k.val) else v[k] := by
  rw [Fin.getElem_fin, getElem_setRegs _ _ _ _ k.isLt, Memory.length_bytesAt]
  rcases le_or_gt k x with hk | hk
  · have hval : k.val ≤ x.val := hk
    have hlen : k.val - 0 < (m.bytesAt a (x.val + 1)).length := by
      rw [Memory.length_bytesAt]
      omega
    rw [if_pos (by omega), if_pos hk, List.getD_eq_getElem _ _ hlen, Memory.getElem_bytesAt]
    rfl
  · have hval : x.val < k.val := hk
    rw [if_neg (by omega), if_neg (not_le_of_gt hk)]
    rfl

/-- Settles O31: the two sides of the bound check, and the loaded registers one by one. -/
theorem ldRegsLoadsTheRange : Obligations.LdRegsLoadsTheRange := by
  intro x s
  refine ⟨decode_ofNat_of_encode (i := .ldRegs x) rfl rfl (by omega), fun hle => ?_, exec_ldRegs_of_gt⟩
  exact ⟨_, exec_ldRegs_of_le hle, getElem_setRegs_bytesAt s.v s.mem (baseAddress s) x⟩

/-- Settles O32: ST_REGS leaves I, so that LD_REGS reads the range that was stored, and passes the same bound. -/
theorem ldRegsAfterStRegsRestores : Obligations.LdRegsAfterStRegsRestores := by
  intro x s t w hm h
  obtain ⟨hle, rfl⟩ := exec_stRegs_next h
  refine ⟨_, exec_ldRegs_of_le hle, fun k => ?_⟩
  rw [getElem_setRegs_bytesAt]
  by_cases hk : k ≤ x
  · rw [if_pos hk, if_pos hk]
    exact byteAt_base_add_of_exec_stRegs hm h hk
  · rw [if_neg hk, if_neg hk]

end Sys2Proof.Machine
end

section
/-! PROOFS. The display (44_display.md): the pixels that a sprite touches, `draw` as an XOR pixel by pixel, and with that
its three properties, DRW and CLS. -/

namespace Sys2Proof.Machine

/-! ## The pixels that a sprite touches (44_display.md R141, R144) -/

/-- The pixel that row `j`, column `c` of a sprite fall on when it is drawn at (x, y); `mem_touched` ties it to
`touched`. -/
def targetPixel (x y : Byte) (j c : Nat) : Nat := (x.toNat + c) % 64 + 64 * ((y.toNat + j) % 32)

/-- The bit that row `j`, column `c` of a sprite bring (44_display.md R141). -/
def spriteBit (sprite : List Byte) (j c : Nat) : Bool := (sprite.getD j 0).getLsbD (7 - c)

section
variable {x y : Byte}

theorem targetPixel_lt (j c : Nat) : targetPixel x y j c < 2048 := by
  rw [targetPixel]
  omega

/-- A column and a row on the screen are those of one target only, each by its own reduction. -/
theorem eq_targetPixel_iff {col : Nat} (hcol : col < 64) (row j c : Nat) :
    col + 64 * row = targetPixel x y j c ↔ (x.toNat + c) % 64 = col ∧ (y.toNat + j) % 32 = row := by
  rw [targetPixel]
  omega

/-- Eight columns and 32 rows do not come round to the same pixel again (44_display.md R144). -/
theorem targetPixel_inj {j j' c c' : Nat} (hj : j < 32) (hj' : j' < 32) (hc : c < 8) (hc' : c' < 8)
    (h : targetPixel x y j c = targetPixel x y j' c') : j = j' ∧ c = c' := by
  simp only [targetPixel] at h
  omega

theorem mem_touchedRow {j : Nat} {b : Byte} {t : Nat × Bool} :
    t ∈ touchedRow x y j b ↔ ∃ c, c < 8 ∧ t = (targetPixel x y j c, b.getLsbD (7 - c)) := by
  simp only [touchedRow, List.mem_map, List.mem_range, targetPixel, eq_comm]

theorem mem_touchedFrom {j : Nat} {sprite : List Byte} {t : Nat × Bool} :
    t ∈ touchedFrom x y j sprite ↔
      ∃ k c, k < sprite.length ∧ c < 8 ∧ t = (targetPixel x y (j + k) c, spriteBit sprite k c) := by
  induction sprite generalizing j with
  | nil => simp [touchedFrom]
  | cons b rest ih =>
    rw [touchedFrom, List.mem_append, mem_touchedRow, ih]
    constructor
    · rintro (⟨c, hc, rfl⟩ | ⟨k, c, hk, hc, rfl⟩)
      · exact ⟨0, c, Nat.succ_pos _, hc, rfl⟩
      · exact ⟨k + 1, c, Nat.succ_lt_succ hk, hc, by rw [Nat.add_right_comm j 1 k]; rfl⟩
    · rintro ⟨_ | k, c, hk, hc, rfl⟩
      · exact .inl ⟨c, hc, rfl⟩
      · exact .inr ⟨k, c, Nat.lt_of_succ_lt_succ hk, hc, by rw [Nat.add_right_comm j 1 k]; rfl⟩

theorem length_touchedFrom (j : Nat) (sprite : List Byte) :
    (touchedFrom x y j sprite).length = 8 * sprite.length := by
  induction sprite generalizing j with
  | nil => rfl
  | cons b rest ih =>
    rw [touchedFrom, List.length_append, ih, List.length_cons, touchedRow, List.length_map, List.length_range]
    omega

theorem nodup_touchedRow {j : Nat} (hj : j < 32) (b : Byte) : ((touchedRow x y j b).map Prod.fst).Nodup := by
  rw [touchedRow, List.map_map]
  refine List.Nodup.map_on (fun c hc c' hc' h => ?_) List.nodup_range
  exact (targetPixel_inj hj hj (List.mem_range.mp hc) (List.mem_range.mp hc') h).2

/-- The first row shares no pixel with the later ones, as these are fewer than 32 rows away. -/
theorem nodup_touchedFrom {j : Nat} {sprite : List Byte} (hj : j + sprite.length ≤ 32) :
    ((touchedFrom x y j sprite).map Prod.fst).Nodup := by
  induction sprite generalizing j with
  | nil => exact List.nodup_nil
  | cons b rest ih =>
    rw [List.length_cons] at hj
    rw [touchedFrom, List.map_append, List.nodup_append]
    refine ⟨nodup_touchedRow (by omega) b, ih (by omega), fun p hp q hq hpq => ?_⟩
    obtain ⟨t, ht, rfl⟩ := List.mem_map.mp hp
    obtain ⟨u, hu, rfl⟩ := List.mem_map.mp hq
    obtain ⟨c, hc, rfl⟩ := mem_touchedRow.mp ht
    obtain ⟨k, c', hk, hc', rfl⟩ := mem_touchedFrom.mp hu
    have hrow := (targetPixel_inj (by omega) (by omega) hc hc' hpq).1
    omega

variable {sprite : List Byte}

theorem mem_touched {t : Nat × Bool} :
    t ∈ touched x y sprite ↔
      ∃ j c, j < sprite.length ∧ c < 8 ∧ t = (targetPixel x y j c, spriteBit sprite j c) := by
  simp only [touched, mem_touchedFrom, Nat.zero_add]

theorem lt_of_mem_touched {t : Nat × Bool} (h : t ∈ touched x y sprite) : t.1 < 2048 := by
  obtain ⟨j, c, _, _, rfl⟩ := mem_touched.mp h
  exact targetPixel_lt j c

/-- The incoming bit of a pixel is 1 when `touched` lists it with a 1. -/
theorem incoming_iff {p : Nat} : Claims.incoming x y sprite p ↔ (p, true) ∈ touched x y sprite := by
  simp only [mem_touched, Prod.mk.injEq, eq_comm (a := true)]
  rfl

theorem nodup_touched (hs : sprite.length ≤ 15) : ((touched x y sprite).map Prod.fst).Nodup :=
  nodup_touchedFrom (by omega)

/-- Wraparound is by axis: the touched pixels are all those of the touched columns and the touched rows. -/
theorem mem_map_fst_touched {col : Nat} (hcol : col < 64) (row : Nat) :
    col + 64 * row ∈ (touched x y sprite).map Prod.fst ↔
      col ∈ (List.range 8).map (fun c => (x.toNat + c) % 64) ∧
      row ∈ (List.range sprite.length).map (fun j => (y.toNat + j) % 32) := by
  simp only [List.mem_map, List.mem_range]
  constructor
  · rintro ⟨t, ht, hp⟩
    obtain ⟨j, c, hj, hc, rfl⟩ := mem_touched.mp ht
    obtain ⟨hx, hy⟩ := (eq_targetPixel_iff hcol row j c).mp hp.symm
    exact ⟨⟨c, hc, hx⟩, j, hj, hy⟩
  · rintro ⟨⟨c, hc, hx⟩, j, hj, hy⟩
    exact ⟨_, mem_touched.mpr ⟨j, c, hj, hc, rfl⟩, ((eq_targetPixel_iff hcol row j c).mpr ⟨hx, hy⟩).symm⟩

end

/-- Settles O35: a sprite of 15 bytes stays below the 32 rows after which rows come round again. -/
theorem drawTouchesNoPixelTwice : Obligations.DrawTouchesNoPixelTwice :=
  fun _ _ sprite hs => ⟨nodup_touched hs, length_touchedFrom 0 sprite, fun _ => lt_of_mem_touched⟩

/-! ## `draw` pixel by pixel (44_display.md R141) -/

/-- What the writes of `draw` leave, on any display `e` written to: a listed pixel is its value in `d` XOR its bit. -/
theorem pixel_foldl_xor (d : Display) {ts : List (Nat × Bool)} (hnodup : (ts.map Prod.fst).Nodup)
    (hlt : ∀ t ∈ ts, t.1 < 2048) (e : Display) (p : Nat) :
    (ts.foldl (fun e t => e.setPixel t.1 (d.pixel t.1 ^^ t.2)) e).pixel p =
      if p ∈ ts.map Prod.fst then d.pixel p ^^ decide ((p, true) ∈ ts) else e.pixel p := by
  induction ts generalizing e with
  | nil => rfl
  | cons t ts ih =>
    obtain ⟨q, b⟩ := t
    obtain ⟨hq : q ∉ ts.map Prod.fst, hnodup⟩ := List.nodup_cons.mp hnodup
    have hbit : (q, true) ∉ ts := fun h => hq (List.mem_map_of_mem h)
    rw [List.foldl_cons, ih hnodup (fun t ht => hlt t (List.mem_cons_of_mem _ ht)),
      Display.pixel_setPixel _ (hlt _ List.mem_cons_self)]
    by_cases hp : p = q
    · subst hp
      simp [hq, hbit]
    · simp [hp]

section
variable {x y : Byte} {sprite : List Byte}

/-- A pixel not touched has no incoming 1, so that one equation holds for all pixels. -/
theorem pixel_draw (d : Display) (hs : sprite.length ≤ 15) (p : Nat) :
    (draw d x y sprite).1.pixel p = (d.pixel p ^^ decide ((p, true) ∈ touched x y sprite)) := by
  rw [draw, pixel_foldl_xor d (nodup_touched hs) (fun _ => lt_of_mem_touched)]
  by_cases hp : p ∈ (touched x y sprite).map Prod.fst
  · exact if_pos hp
  · have hbit : (p, true) ∉ touched x y sprite := fun h => hp (List.mem_map_of_mem h)
    rw [if_neg hp, decide_eq_false hbit, Bool.xor_false]

theorem pixel_draw_eq_true_iff (d : Display) (hs : sprite.length ≤ 15) (p : Nat) :
    (draw d x y sprite).1.pixel p = true ↔
      (d.pixel p = true ∧ ¬ Claims.incoming x y sprite p) ∨ (d.pixel p = false ∧ Claims.incoming x y sprite p) := by
  rw [pixel_draw d hs, incoming_iff]
  cases d.pixel p <;> simp

theorem collision_draw_iff (d : Display) :
    (draw d x y sprite).2 = true ↔ ∃ p, p < 2048 ∧ d.pixel p = true ∧ Claims.incoming x y sprite p := by
  simp only [draw, List.any_eq_true, Bool.and_eq_true, incoming_iff]
  constructor
  · rintro ⟨⟨p, _⟩, ht, hset, rfl⟩
    exact ⟨p, lt_of_mem_touched ht, hset, ht⟩
  · rintro ⟨p, _, hset, ht⟩
    exact ⟨_, ht, hset, rfl⟩

end

/-- Settles O34: the pixels of `draw` and its collision, with the incoming bits read off `touched`. -/
theorem drawIsXorWithCollision : Obligations.DrawIsXorWithCollision :=
  fun d _ _ _ hs => ⟨fun p _ => pixel_draw_eq_true_iff d hs p, collision_draw_iff d⟩

/-! ## The properties that the source requires (44_display.md R145) -/

/-- A display is its 2048 pixels. -/
theorem Display.ext_pixel {d e : Display} (h : ∀ p, p < 2048 → d.pixel p = e.pixel p) : d = e := by
  refine Vector.ext fun r hr => BitVec.eq_of_getLsbD_eq fun c hc => ?_
  have hrow : (c + 64 * r) / 64 = r := by omega
  have hcol : (c + 64 * r) % 64 = c := by omega
  have hp := h (c + 64 * r) (by omega)
  simpa [Display.pixel, Display.row, hrow, hcol, hr] using hp

section
variable {x y : Byte} {sprite : List Byte}

theorem draw_draw (d : Display) (hs : sprite.length ≤ 15) : (draw (draw d x y sprite).1 x y sprite).1 = d := by
  refine Display.ext_pixel fun p _ => ?_
  rw [pixel_draw _ hs, pixel_draw d hs, Bool.xor_assoc, Bool.xor_self, Bool.xor_false]

/-- Where the incoming bit is 1, the first draw has set exactly the pixels that were clear. -/
theorem collision_draw_draw_iff (d : Display) (hs : sprite.length ≤ 15) :
    (draw (draw d x y sprite).1 x y sprite).2 = true ↔
      ∃ p, p < 2048 ∧ d.pixel p = false ∧ Claims.incoming x y sprite p := by
  rw [collision_draw_iff]
  refine exists_congr fun p => and_congr_right fun _ => and_congr_left fun hin => ?_
  rw [pixel_draw d hs, decide_eq_true (incoming_iff.mp hin), Bool.xor_true, Bool.not_eq_true']

end

/-- The pixels of glyph 0 at (0, 0), read off the list of touched pixels. -/
theorem incoming_glyphZero_iff {p : Nat} :
    Claims.incoming 0 0 glyphZero p ↔ p ∈ [0, 1, 2, 3, 64, 67, 128, 131, 192, 195, 256, 257, 258, 259] := by
  have hlit : ((touched 0 0 glyphZero).filter Prod.snd).map Prod.fst =
      [0, 1, 2, 3, 64, 67, 128, 131, 192, 195, 256, 257, 258, 259] := by decide
  rw [incoming_iff, ← hlit]
  simp

/-- On a blank display a draw sets the pixels whose incoming bit is 1. -/
theorem pixel_draw_clearDisplay {x y : Byte} {sprite : List Byte} (hs : sprite.length ≤ 15) {p : Nat} (hp : p < 2048) :
    (draw clearDisplay x y sprite).1.pixel p = true ↔ Claims.incoming x y sprite p := by
  rw [pixel_draw _ hs, clearDisplay_pixel hp, Bool.false_xor, decide_eq_true_iff, incoming_iff]

theorem collision_draw_clearDisplay (x y : Byte) (sprite : List Byte) : (draw clearDisplay x y sprite).2 = false := by
  refine Bool.eq_false_of_not_eq_true fun h => ?_
  obtain ⟨p, hp, hset, _⟩ := (collision_draw_iff _).mp h
  exact Bool.false_ne_true ((clearDisplay_pixel hp).symm.trans hset)

/-- Settles O36: two equal XORs cancel, wraparound is by axis, and a blank display shows the glyph itself. -/
theorem drawPropertiesOfTheSource : Obligations.DrawPropertiesOfTheSource := by
  refine ⟨fun d x y sprite hs => ⟨draw_draw d hs, collision_draw_draw_iff d hs⟩, ?wraparound,
    collision_draw_clearDisplay 0 0 glyphZero, fun p hp => ?glyph⟩
  case wraparound =>
    intro sprite hs col row hcol _
    rw [mem_map_fst_touched hcol, hs]
    exact Iff.rfl
  case glyph => exact (pixel_draw_clearDisplay (by decide) hp).trans incoming_glyphZero_iff

/-! ## The instructions (44_display.md R142, R143) -/

/-- Settles O33: the blank display, put in the place of the old one. -/
theorem clsClearsEveryPixel : Obligations.ClsClearsEveryPixel :=
  ⟨decode_encode (i := .cls) rfl, fun _ => ⟨clearDisplay, rfl, fun _ => clearDisplay_pixel⟩⟩

section
variable {x y : Reg} {n : Fin 16} {s : State}

/-- A sprite inside memory, or an empty one wherever I points (decision D14), is the bytes at I. -/
theorem exec_drw_of_le (h : n.val = 0 ∨ baseAddress s + n.val - 1 ≤ 4095) :
    exec (.drw x y n) s =
      .next { s with
        px := (draw s.px s.v[x] s.v[y] (s.mem.bytesAt (baseAddress s) n.val)).1
        v := s.v.set 15 (flagByte (draw s.px s.v[x] s.v[y] (s.mem.bytesAt (baseAddress s) n.val)).2) } := by
  have hread : memRead s.mem (baseAddress s) n.val = .ok (s.mem.bytesAt (baseAddress s) n.val) := by
    rcases memRead_cases s.mem (baseAddress s) n.val with ⟨h0, he⟩ | ⟨_, _, _⟩ | ⟨_, _, he⟩
    · rw [he, h0]
      rfl
    · omega
    · exact he
  rw [exec, execDrw, hread]
  rfl

theorem exec_drw_of_gt (hn : 1 ≤ n.val) (h : 4095 < baseAddress s + n.val - 1) :
    exec (.drw x y n) s = .fault (.memoryOutOfBounds (baseAddress s + n.val - 1)) := by
  rcases memRead_cases s.mem (baseAddress s) n.val with ⟨_, _⟩ | ⟨_, _, he⟩ | ⟨_, _, _⟩
  · omega
  · rw [exec, execDrw, he, orRaise_error]
  · omega

end

/-- Settles O37: the two sides of the bound check; what is drawn is the sprite at I, of at most 15 bytes. -/
theorem drwDrawsTheSpriteAtI : Obligations.DrwDrawsTheSpriteAtI := by
  intro x y n s
  refine ⟨decode_ofNat_of_encode (i := .drw x y n) rfl rfl (by omega), fun hle => ?_, exec_drw_of_gt⟩
  have hs : (s.mem.bytesAt (baseAddress s) n.val).length ≤ 15 := by
    rw [Memory.length_bytesAt]
    omega
  exact ⟨_, _, exec_drw_of_le hle, drawIsXorWithCollision s.px s.v[x] s.v[y] _ hs⟩

end Sys2Proof.Machine
end

section
/-! PROOFS. Keypad and timer instructions (45_keypad_timers.md): the key that a skip tests, the key that the scan
finds, and the timers. -/

namespace Sys2Proof.Machine

/-! ## SKP and SKNP (45_keypad_timers.md R150, R151, R156) -/

theorem getKey_of_lt (s : State) (k : Fin 16) : getKey s k.val = .ok s.key[k] := dif_pos k.isLt

theorem getKey_of_gt (s : State) {k : Nat} (h : 15 < k) : getKey s k = .error (.invalidKeyIndex k) :=
  dif_neg (by omega)

section
variable {x : Reg} {s : State}

theorem exec_skp_of_key {k : Fin 16} (h : s.v[x].toNat = k.val) : exec (.skp x) s = .next (s.skipIf s.key[k]) := by
  rw [exec, execSkp, keyOperand, State.readV_eq, h, getKey_of_lt, orRaise_ok]

theorem exec_sknp_of_key {k : Fin 16} (h : s.v[x].toNat = k.val) :
    exec (.sknp x) s = .next (s.skipIf (!s.key[k])) := by
  rw [exec, execSknp, keyOperand, State.readV_eq, h, getKey_of_lt, orRaise_ok]

theorem exec_skp_of_gt (h : 15 < s.v[x].toNat) : exec (.skp x) s = .fault (.invalidKeyIndex s.v[x].toNat) := by
  rw [exec, execSkp, keyOperand, State.readV_eq, getKey_of_gt s h, orRaise_error]

theorem exec_sknp_of_gt (h : 15 < s.v[x].toNat) : exec (.sknp x) s = .fault (.invalidKeyIndex s.v[x].toNat) := by
  rw [exec, execSknp, keyOperand, State.readV_eq, getKey_of_gt s h, orRaise_error]

end

/-- Settles O38: the two sides of the keypad's check; below it, each skip's test as a condition on the latch. -/
theorem keySkips : Obligations.KeySkips := by
  intro x s
  refine ⟨?decodeSkp, ?decodeSknp, fun k hk => ⟨?execSkp, ?execSknp⟩, fun h => ⟨exec_skp_of_gt h, exec_sknp_of_gt h⟩⟩
  case decodeSkp => exact decode_ofNat_of_encode (i := .skp x) rfl rfl (by omega)
  case decodeSknp => exact decode_ofNat_of_encode (i := .sknp x) rfl rfl (by omega)
  case execSkp => rw [exec_skp_of_key hk, skipIf_eq_ite s Iff.rfl]
  case execSknp => rw [exec_sknp_of_key hk, skipIf_eq_ite s (iff_of_eq (Bool.not_eq_true' _))]

/-! ## LD_VX_K (45_keypad_timers.md R152) -/

/-- The key found is the highest that is down: the keys that the scan passes from 0xF downwards are all up. -/
theorem scanKeys_eq_some {s : State} {k : Fin 16} (hdown : s.key[k] = true)
    (hup : ∀ j : Fin 16, k < j → s.key[j] = false) : scanKeys s = some k := by
  have hmem : ∀ k : Fin 16, k ∈ allKeys.reverse := by decide
  have hdesc : allKeys.reverse.Pairwise (fun j k => k < j) := by decide
  obtain ⟨above, below, hsplit⟩ := List.append_of_mem (hmem k)
  rw [hsplit, List.pairwise_append] at hdesc
  obtain ⟨-, -, habove⟩ := hdesc
  rw [scanKeys_eq, List.find?_eq_some_iff_append]
  refine ⟨hdown, above, below, hsplit, fun j hj => ?_⟩
  rw [hup j (habove j hj k List.mem_cons_self), Bool.not_false]

theorem decode_ldVxK (x : Reg) : decode (BitVec.ofNat 16 (0xF00A + 0x100 * x.val)) = .ldVxK x :=
  decode_ofNat_of_encode (i := .ldVxK x) rfl rfl (by omega)

theorem exec_ldVxK_completes (x : Reg) (s : State) : ∃ t, exec (.ldVxK x) s = .next t := by
  cases h : scanKeys s with
  | none => exact ⟨_, exec_ldVxK_of_none x h⟩
  | some k => exact ⟨_, exec_ldVxK_of_some x h⟩

/-- The rewind undoes the sequencer's advance, so that a cycle in which no key is down changes nothing. -/
theorem cycle_of_ldVxK_of_none {x : Reg} {s : State} (hscan : scanKeys s = none)
    (hf : fetch s.mem s.pc = .ok (BitVec.ofNat 16 (0xF00A + 0x100 * x.val))) : cycle s = .next s := by
  have hback : s.advance.setPc (s.advance.pc - 2) = s := by
    rw [State.advance_pc, BitVec.add_sub_cancel]
    rfl
  rw [cycle_of_fetch hf, decode_ldVxK, exec_ldVxK_of_none (s := s.advance) x hscan, hback]

/-- Settles O39: the scan finds no key, or the highest that is down. -/
theorem ldVxKPolls : Obligations.LdVxKPolls := by
  intro x s
  have hnone := scanKeys_eq_none_iff s
  refine ⟨decode_ldVxK x, exec_ldVxK_completes x s, fun hall => exec_ldVxK_of_none x (hnone.mpr hall),
    fun k hdown hup => exec_ldVxK_of_some x (scanKeys_eq_some hdown hup), fun hall hp hf => ?_⟩
  rw [step_of_pending_nil hp]
  exact cycle_of_ldVxK_of_none (hnone.mpr hall) hf

/-! ## Timers (45_keypad_timers.md R153 to R155; 60_exceptions.md R184, R185) -/

/-- A tick is the subtraction of numbers that stops at 0 (60_exceptions.md R184). -/
theorem toNat_tickTimer (b : Byte) : (tickTimer b).toNat = b.toNat - 1 := by
  rw [tickTimer]
  split
  case isTrue hpos => exact BitVec.toNat_sub_of_le hpos
  case isFalse hzero => omega

/-- Settles O40: the encoder's words; one tick of DT, and the sound flag by its definition. -/
theorem timerInstructions : Obligations.TimerInstructions := by
  intro x s
  refine ⟨?decodeLdVxDt, rfl, ?decodeLdDtVx, rfl, toNat_tickTimer s.v[x], ?decodeLdStVx, rfl, decide_eq_true_iff⟩
  case decodeLdVxDt => exact decode_ofNat_of_encode (i := .ldVxDt x) rfl rfl (by omega)
  case decodeLdDtVx => exact decode_ofNat_of_encode (i := .ldDtVx x) rfl rfl (by omega)
  case decodeLdStVx => exact decode_ofNat_of_encode (i := .ldStVx x) rfl rfl (by omega)

end Sys2Proof.Machine
end

section
/-! PROOFS. Failures, the host's commands and the observers (60_exceptions.md): when an instruction fails and that it
completes otherwise, the state that a failing step leaves, what each host command does, and what the observers show. -/

namespace Sys2Proof.Machine

open Safety (FailsWith)

/-! ## When an instruction fails (60_exceptions.md R171) -/

/-- Under a failure condition of its own an instruction ends with the kind and the info listed there. -/
theorem exec_of_failsWith {i : Instr} {s : State} {f : Fault} (h : FailsWith i s f) : exec i s = .fault f := by
  cases i with
  | call nnn => obtain ⟨hfull, rfl⟩ := h; exact exec_call_of_full nnn hfull
  | ret => obtain ⟨hempty, rfl⟩ := h; exact exec_ret_of_empty hempty
  | drw x y n => obtain ⟨hn, hgt, rfl⟩ := h; exact exec_drw_of_gt hn hgt
  | bcd x => obtain ⟨hgt, rfl⟩ := h; exact exec_bcd_of_gt hgt
  | stRegs x => obtain ⟨hgt, rfl⟩ := h; exact exec_stRegs_of_gt hgt
  | ldRegs x => obtain ⟨hgt, rfl⟩ := h; exact exec_ldRegs_of_gt hgt
  | skp x => obtain ⟨hgt, rfl⟩ := h; exact exec_skp_of_gt hgt
  | sknp x => obtain ⟨hgt, rfl⟩ := h; exact exec_sknp_of_gt hgt
  | _ => exact h.elim

/-- An instruction none of whose failure conditions holds completes. -/
theorem exec_completes {i : Instr} {s : State} (h : ∀ f, ¬ FailsWith i s f) : ∃ t, exec i s = .next t := by
  cases i with
  | call nnn =>
    have hfree : s.sp ≠ 16 := fun hfull => h _ ⟨hfull, rfl⟩
    exact ⟨_, exec_call_of_lt nnn (by omega)⟩
  | ret =>
    have hused : s.sp ≠ 0 := fun hempty => h _ ⟨hempty, rfl⟩
    obtain ⟨k, hk⟩ := Fin.exists_succ_eq.mpr hused
    exact ⟨_, exec_ret_of_succ (k := k) (by rw [← hk]; rfl)⟩
  | drw x y n =>
    refine ⟨_, exec_drw_of_le ?_⟩
    by_contra hout
    exact h _ ⟨by omega, by rw [baseAddress] at hout; omega, rfl⟩
  | bcd x => exact ⟨_, exec_bcd_of_le (Nat.le_of_not_lt fun hgt => h _ ⟨hgt, rfl⟩)⟩
  | stRegs x => exact ⟨_, exec_stRegs_of_le (Nat.le_of_not_lt fun hgt => h _ ⟨hgt, rfl⟩)⟩
  | ldRegs x => exact ⟨_, exec_ldRegs_of_le (Nat.le_of_not_lt fun hgt => h _ ⟨hgt, rfl⟩)⟩
  | skp x =>
    have hk : s.v[x].toNat ≤ 15 := Nat.le_of_not_lt fun hgt => h _ ⟨hgt, rfl⟩
    exact ⟨_, exec_skp_of_key (k := ⟨s.v[x].toNat, Nat.lt_succ_of_le hk⟩) rfl⟩
  | sknp x =>
    have hk : s.v[x].toNat ≤ 15 := Nat.le_of_not_lt fun hgt => h _ ⟨hgt, rfl⟩
    exact ⟨_, exec_sknp_of_key (k := ⟨s.v[x].toNat, Nat.lt_succ_of_le hk⟩) rfl⟩
  | ldVxK x => exact exec_ldVxK_completes x s
  | _ => exact ⟨_, rfl⟩

/-- The two ways in which an instruction ends: it completes, or a failure condition of its own holds. -/
theorem exec_completes_or_fails (i : Instr) (s : State) :
    (∃ t, exec i s = .next t) ∨ ∃ f, FailsWith i s f ∧ exec i s = .fault f := by
  by_cases h : ∃ f, FailsWith i s f
  · obtain ⟨f, hf⟩ := h
    exact .inr ⟨f, hf, exec_of_failsWith hf⟩
  · exact .inl (exec_completes fun f hf => h ⟨f, hf⟩)

/-- Settles O46: an instruction that fails does not complete, so that a condition of its own holds. -/
theorem failuresAreTheListedOnes : Obligations.FailuresAreTheListedOnes := by
  intro i s f
  refine ⟨fun hfault => ?_, exec_of_failsWith⟩
  rcases exec_completes_or_fails i s with ⟨t, ht⟩ | ⟨g, hg, hfg⟩
  · cases ht.symm.trans hfault
  · cases hfg.symm.trans hfault
    exact hg

/-! ## Nothing is refused (60_exceptions.md R180) -/

theorem orRaise_ne_refused {α : Type} {r : Except Fault α} {go : α → Result} {e : Refusal}
    (hgo : ∀ a, go a ≠ .refused e) : orRaise r go ≠ .refused e := by
  cases r with
  | ok a => exact hgo a
  | error f => exact nofun

theorem exec_ne_refused (i : Instr) (s : State) (e : Refusal) : exec i s ≠ .refused e := by
  rcases exec_completes_or_fails i s with ⟨t, ht⟩ | ⟨f, _, hf⟩
  · rw [ht]; exact nofun
  · rw [hf]; exact nofun

theorem loadRom_of_le {bytes : List Byte} (s : State) (h : bytes.length ≤ 0xE00) :
    loadRom bytes s = .next (s.setMem (s.mem.setBytes 0x200 bytes)) :=
  if_neg (Nat.not_lt.mpr h)

theorem loadRom_of_gt {bytes : List Byte} (s : State) (h : 0xE00 < bytes.length) :
    loadRom bytes s = .fault (.romTooLarge bytes.length) :=
  if_pos h

theorem command_ne_refused (c : Command) (s : State) (e : Refusal) : command c s ≠ .refused e := by
  cases c with
  | reset | decrementTimers => exact nofun
  | loadRom bytes =>
    rcases le_or_gt bytes.length 0xE00 with hle | hgt
    · rw [command, loadRom_of_le s hle]; exact nofun
    · rw [command, loadRom_of_gt s hgt]; exact nofun
  | cycle => exact orRaise_ne_refused fun op => exec_ne_refused (decode op) s.advance e
  | keyDown k | keyUp k => exact orRaise_ne_refused fun _ => nofun

/-- Settles O47: a step is one command, and no command is refused. -/
theorem everyOtherInstructionCompletes : Obligations.EveryOtherInstructionCompletes :=
  ⟨fun _ _ => exec_completes, fun s => command_ne_refused (takeCommand s).1 (takeCommand s).2⟩

/-! ## The state that a failing step leaves (60_exceptions.md R173, R174) -/

theorem stepLeft_of_pending_nil {s : State} (h : s.pending = []) : stepLeft s = stateLeft .cycle s := by
  rw [stepLeft, takeCommand, h]

theorem stateLeft_cycle_of_fetch {s : State} {op : Word} (h : fetch s.mem s.pc = .ok op) :
    stateLeft .cycle s = s.advance := by
  rw [stateLeft, h]

theorem stateLeft_cycle_of_fetch_error {s : State} {f : Fault} (h : fetch s.mem s.pc = .error f) :
    stateLeft .cycle s = s := by
  rw [stateLeft, h]

/-- Settles O48: the fetch fails exactly above 0xFFE, and there its failure is that of the step. -/
theorem failedStepLeavesTheStateAlone : Obligations.FailedStepLeavesTheStateAlone := by
  intro s f hp hfault
  rw [step_of_pending_nil hp] at hfault
  rw [stepLeft_of_pending_nil hp]
  constructor
  · intro hgt
    have hfetch := fetch_of_gt s.mem hgt
    cases (cycle_of_fetch_error hfetch).symm.trans hfault
    exact ⟨stateLeft_cycle_of_fetch_error hfetch, rfl⟩
  · intro hle
    exact stateLeft_cycle_of_fetch (fetch_of_le s.mem hle)

/-! ## Host commands (60_exceptions.md R182, R184, R186, R187) -/

/-- Settles O43: the largest ROM ends at the last byte of memory, so that all its bytes are written. -/
theorem loadRomCopiesTo0x200 : Obligations.LoadRomCopiesTo0x200 := by
  intro bytes s hm
  refine ⟨fun hle => ?_, fun hgt => ⟨loadRom_of_gt s hgt, rfl⟩⟩
  have hend : 0x200 + bytes.length ≤ 4096 := by omega
  have hbyte := Memory.byteAt_setBytes hm hend
  refine ⟨_, loadRom_of_le s hle, Memory.setBytes_wf hm hend, fun k hk => ?copied, fun a ha => ?others⟩
  case copied => rw [hbyte, if_pos (by omega), Nat.add_sub_cancel_left]
  case others => rw [hbyte, if_neg (by omega)]

/-- Settles O41: one tick of each timer. -/
theorem tickSaturates : Obligations.TickSaturates :=
  fun s => ⟨_, _, rfl, toNat_tickTimer s.dt, toNat_tickTimer s.st⟩

theorem writeKey_of_lt (s : State) {k : Nat} (h : k < 16) (down : Bool) :
    writeKey s k down = .ok { s with key := s.key.set k down } :=
  dif_pos h

theorem writeKey_of_gt (s : State) {k : Nat} (h : 15 < k) (down : Bool) :
    writeKey s k down = .error (.invalidKeyIndex k) :=
  dif_neg (by omega)

/-- Settles O42: the two sides of the keypad's check. -/
theorem keyCommandsWriteOneLatch : Obligations.KeyCommandsWriteOneLatch := by
  intro k s
  constructor
  · intro h
    rw [command, command, writeKey_of_lt s h, writeKey_of_lt s h]
    exact ⟨rfl, rfl⟩
  · intro h
    rw [command, command, writeKey_of_gt s h, writeKey_of_gt s h]
    exact ⟨rfl, rfl, rfl, rfl⟩

/-! ## Observers (60_exceptions.md R185, R188, R189) -/

theorem length_displayBuffer (s : State) : (displayBuffer s).length = 2048 := by
  rw [displayBuffer, List.length_map, List.length_range]

theorem getD_displayBuffer (s : State) {p : Nat} (hp : p < 2048) : (displayBuffer s).getD p false = s.px.pixel p := by
  simp [displayBuffer, hp]

/-- The pixel in column `x` of row `y` (10_state.md R19). -/
theorem pixel_column_row (d : Display) {x : Nat} (hx : x < 64) (y : Nat) :
    d.pixel (x + y * 64) = (d.row y).getLsbD x := by
  have hrow : (x + y * 64) / 64 = y := by omega
  have hcol : (x + y * 64) % 64 = x := by omega
  rw [Display.pixel, hrow, hcol]

theorem pendingInstr_debugInfo_of_fetch {s : State} {op : Word} (h : fetch s.mem s.pc = .ok op) :
    (debugInfo s).pendingInstr = some (decode op) := by
  rw [debugInfo, h]
  rfl

/-- Settles O45: an index `x + 64 y` of the buffer is the pixel in column `x` of row `y`. -/
theorem observersShowTheState : Obligations.ObserversShowTheState := by
  intro s
  refine ⟨decide_eq_true_iff, length_displayBuffer s, fun x y hx hy => ?rowMajor,
    ⟨rfl, rfl, rfl, rfl, rfl, rfl, rfl⟩, fun _ => pendingInstr_debugInfo_of_fetch⟩
  case rowMajor =>
    rw [getD_displayBuffer s (by omega)]
    exact pixel_column_row s.px hx y

end Sys2Proof.Machine
end
